-- ==== Sys2Proof/Word.lean ====
section
/-! DEFINITION. The word types of the machine (spec 00_scope.md R7, R8): bytes, 16-bit words, register numbers. -/

namespace Sys2Proof

/-- An unsigned 8-bit value (R7). -/
abbrev Byte := BitVec 8

/-- An unsigned 16-bit value, bit 15 the most significant (R7). -/
abbrev Word := BitVec 16

/-- The number of a general register, 0 to 15 (R20: no register index is ever out of range). -/
abbrev Reg := Fin 16

/-- `VF`, the register that doubles as the flag (R8, R21). -/
abbrev Reg.vf : Reg := 15

end Sys2Proof
end

