-- ==== Sys2Proof/Config.lean ====
section
/-! DEFINITION. The parameters of the hardware (spec 00_scope.md R6) and the free values. -/

namespace Sys2Proof

/-- Which words reach which handler (R6 `DECODE_MODE`; 92_eei_decisions.md D1; 93 U9). -/
inductive DecodeMode where
  /-- the dispatch examines the family nibble and the second key only (R73) -/
  | tableKeyed
  /-- every alias word of R78 is a no-op -/
  | exact
  deriving DecidableEq, Repr

/-- Where a sprite pixel goes at the screen edges (R6 `DRAW_EDGE`; the readings A to D of 93 U6). -/
inductive DrawEdge where
  /-- A: the row wraps modulo H, the column runs on in the row-major array -/
  | rowWrapLinearSpill
  /-- B: the row wraps modulo H, a pixel past the last column is not drawn -/
  | rowWrapColumnClip
  /-- C: neither is reduced, the index may run past the array -/
  | linearSpill
  /-- D: a pixel past the last row or the last column is not drawn -/
  | clip
  deriving DecidableEq, Repr

/-- `MEM_SIZE` (R6, R50). -/
abbrev Config.memSize : Nat := 4096

/-- `FONT_BASE` (R6). -/
abbrev Config.fontBase : Nat := 0x050

/-- `PROGRAM_ORIGIN`, also the entry point (R6, R35). -/
abbrev Config.programOrigin : Nat := 0x200

/-- `ROM_MAX` (R6, R183). -/
abbrev Config.romMax : Nat := 3584

/-- `STACK_DEPTH` (R6, R24). -/
abbrev Config.stackDepth : Nat := 16

/-- `VIDEO_WIDTH`, the spec's default (R6). UNVERIFIED: log 6, unsafe. -/
abbrev Config.videoWidth : Nat := 64

/-- `VIDEO_HEIGHT`, the spec's default (R6). UNVERIFIED: log 6, unsafe. -/
abbrev Config.videoHeight : Nat := 32

/-- The number of cells of the video buffer (R28). -/
abbrev Config.videoCells : Nat := Config.videoWidth * Config.videoHeight

/-- `DECODE_MODE` (R6, D1). UNVERIFIED: log 8, unsafe on the alias words of R78. -/
abbrev Config.decodeMode : DecodeMode := .tableKeyed

/-- `DRAW_EDGE` (R6, D12). UNVERIFIED: log 5, unsafe outside the common region of R139. -/
abbrev Config.drawEdge : DrawEdge := .rowWrapLinearSpill

/-- `FONTSET`, the spec's default glyphs, five bytes a digit, top row first (R33). UNVERIFIED: log 7, unsafe. -/
def Config.fontset : List Byte :=
  [0xF0, 0x90, 0x90, 0x90, 0xF0] ++ [0x20, 0x60, 0x20, 0x20, 0x70] ++
  [0xF0, 0x10, 0xF0, 0x80, 0xF0] ++ [0xF0, 0x10, 0xF0, 0x10, 0xF0] ++
  [0x90, 0x90, 0xF0, 0x10, 0x10] ++ [0xF0, 0x80, 0xF0, 0x10, 0xF0] ++
  [0xF0, 0x80, 0xF0, 0x90, 0xF0] ++ [0xF0, 0x10, 0x20, 0x40, 0x40] ++
  [0xF0, 0x90, 0xF0, 0x90, 0xF0] ++ [0xF0, 0x90, 0xF0, 0x10, 0xF0] ++
  [0xF0, 0x90, 0xF0, 0x90, 0x90] ++ [0xE0, 0x90, 0xE0, 0x90, 0xE0] ++
  [0xF0, 0x80, 0x80, 0x80, 0xF0] ++ [0xE0, 0x90, 0x90, 0x90, 0xE0] ++
  [0xF0, 0x80, 0xF0, 0x80, 0xF0] ++ [0xF0, 0x80, 0xF0, 0x80, 0x80]

/-- The free byte of the k-th `draw()` of the run with a given seed (R12, R133, R134): no body, so no proof can see a value
of it, relate two draws of a run, or relate the draws of two seeds. DESIGN CHOICE: log 13, safe. -/
opaque Config.freeByte : (seed k : Nat) → Byte

end Sys2Proof
end

