-- ==== Sys2Proof/Syntax.lean ====
section
/-! DEFINITION. The instructions, one constructor per row of spec/opcode_table.json, in the table's order
(spec 30_encoding.md R76; operand fields R72). -/

namespace Sys2Proof

/-- The 34 instructions of R76 and the no-op of R96. -/
inductive Instr where
  /-- `CLS` (R137) -/
  | cls
  /-- `RET` (R102) -/
  | ret
  /-- `JP nnn` (R100) -/
  | jp (nnn : BitVec 12)
  /-- `CALL nnn` (R101) -/
  | call (nnn : BitVec 12)
  /-- `SE Vx, kk` (R103) -/
  | seImm (x : Reg) (kk : Byte)
  /-- `SNE Vx, kk` (R104) -/
  | sneImm (x : Reg) (kk : Byte)
  /-- `SE Vx, Vy` (R105) -/
  | seReg (x y : Reg)
  /-- `LD Vx, kk` (R110) -/
  | ldImm (x : Reg) (kk : Byte)
  /-- `ADD Vx, kk` (R121) -/
  | addImm (x : Reg) (kk : Byte)
  /-- `LD Vx, Vy` (R111) -/
  | ldReg (x y : Reg)
  /-- `OR Vx, Vy` (R122) -/
  | orReg (x y : Reg)
  /-- `AND Vx, Vy` (R123) -/
  | andReg (x y : Reg)
  /-- `XOR Vx, Vy` (R124) -/
  | xorReg (x y : Reg)
  /-- `ADD Vx, Vy` (R125) -/
  | addReg (x y : Reg)
  /-- `SUB Vx, Vy` (R126) -/
  | sub (x y : Reg)
  /-- `SHR Vx` (R127): `y` is part of the word, and the operation ignores it. -/
  | shr (x y : Reg)
  /-- `SUBN Vx, Vy` (R128) -/
  | subn (x y : Reg)
  /-- `SHL Vx` (R129): `y` is part of the word, and the operation ignores it. -/
  | shl (x y : Reg)
  /-- `SNE Vx, Vy` (R106) -/
  | sneReg (x y : Reg)
  /-- `LD I, nnn` (R112) -/
  | ldI (nnn : BitVec 12)
  /-- `JP V0, nnn` (R107) -/
  | jpV0 (nnn : BitVec 12)
  /-- `RND Vx, kk` (R133) -/
  | rnd (x : Reg) (kk : Byte)
  /-- `DRW Vx, Vy, n` (R138) -/
  | drw (x y : Reg) (n : BitVec 4)
  /-- `SKP Vx` (R146) -/
  | skp (x : Reg)
  /-- `SKNP Vx` (R147) -/
  | sknp (x : Reg)
  /-- `LD Vx, DT` (R113) -/
  | ldFromDT (x : Reg)
  /-- `LD Vx, K` (R148) -/
  | ldKey (x : Reg)
  /-- `LD DT, Vx` (R114) -/
  | ldToDT (x : Reg)
  /-- `LD ST, Vx` (R115) -/
  | ldToST (x : Reg)
  /-- `ADD I, Vx` (R130) -/
  | addI (x : Reg)
  /-- `LD F, Vx` (R116) -/
  | ldFont (x : Reg)
  /-- `LD B, Vx` (R132) -/
  | ldBcd (x : Reg)
  /-- `LD [I], Vx` (R117) -/
  | storeRegs (x : Reg)
  /-- `LD Vx, [I]` (R118) -/
  | loadRegs (x : Reg)
  /-- the no-op of every unmapped word (R96), with that word. DESIGN CHOICE: log 28, safe. -/
  | nop (w : Word)
  deriving DecidableEq, Repr

/-- The `x` operand, where the format has one (R71, R72). -/
def Instr.operandX : Instr → Option Reg
  | .cls | .ret | .jp _ | .call _ | .ldI _ | .jpV0 _ | .nop _ => none
  | .seImm x _ | .sneImm x _ | .ldImm x _ | .addImm x _ | .rnd x _ => some x
  | .seReg x _ | .ldReg x _ | .orReg x _ | .andReg x _ | .xorReg x _ | .addReg x _ | .sub x _ | .shr x _
  | .subn x _ | .shl x _ | .sneReg x _ | .drw x _ _ => some x
  | .skp x | .sknp x | .ldFromDT x | .ldKey x | .ldToDT x | .ldToST x | .addI x | .ldFont x | .ldBcd x
  | .storeRegs x | .loadRegs x => some x

/-- The `y` operand, where the format has one (R71, R72). -/
def Instr.operandY : Instr → Option Reg
  | .seReg _ y | .ldReg _ y | .orReg _ y | .andReg _ y | .xorReg _ y | .addReg _ y | .sub _ y | .shr _ y
  | .subn _ y | .shl _ y | .sneReg _ y | .drw _ y _ => some y
  | .cls | .ret | .jp _ | .call _ | .ldI _ | .jpV0 _ | .nop _ => none
  | .seImm _ _ | .sneImm _ _ | .ldImm _ _ | .addImm _ _ | .rnd _ _ => none
  | .skp _ | .sknp _ | .ldFromDT _ | .ldKey _ | .ldToDT _ | .ldToST _ | .addI _ | .ldFont _ | .ldBcd _
  | .storeRegs _ | .loadRegs _ => none

/-- The immediate `kk`, where the format has one (R71, R72). -/
def Instr.operandKK : Instr → Option Byte
  | .seImm _ kk | .sneImm _ kk | .ldImm _ kk | .addImm _ kk | .rnd _ kk => some kk
  | .cls | .ret | .jp _ | .call _ | .ldI _ | .jpV0 _ | .nop _ => none
  | .seReg _ _ | .ldReg _ _ | .orReg _ _ | .andReg _ _ | .xorReg _ _ | .addReg _ _ | .sub _ _ | .shr _ _
  | .subn _ _ | .shl _ _ | .sneReg _ _ | .drw _ _ _ => none
  | .skp _ | .sknp _ | .ldFromDT _ | .ldKey _ | .ldToDT _ | .ldToST _ | .addI _ | .ldFont _ | .ldBcd _
  | .storeRegs _ | .loadRegs _ => none

/-- The row count `n`, where the format has one (R71, R72). -/
def Instr.operandN : Instr → Option (BitVec 4)
  | .drw _ _ n => some n
  | .cls | .ret | .jp _ | .call _ | .ldI _ | .jpV0 _ | .nop _ => none
  | .seImm _ _ | .sneImm _ _ | .ldImm _ _ | .addImm _ _ | .rnd _ _ => none
  | .seReg _ _ | .ldReg _ _ | .orReg _ _ | .andReg _ _ | .xorReg _ _ | .addReg _ _ | .sub _ _ | .shr _ _
  | .subn _ _ | .shl _ _ | .sneReg _ _ => none
  | .skp _ | .sknp _ | .ldFromDT _ | .ldKey _ | .ldToDT _ | .ldToST _ | .addI _ | .ldFont _ | .ldBcd _
  | .storeRegs _ | .loadRegs _ => none

/-- The address `nnn`, where the format has one (R71, R72). -/
def Instr.operandNNN : Instr → Option (BitVec 12)
  | .jp nnn | .call nnn | .ldI nnn | .jpV0 nnn => some nnn
  | .cls | .ret | .nop _ => none
  | .seImm _ _ | .sneImm _ _ | .ldImm _ _ | .addImm _ _ | .rnd _ _ => none
  | .seReg _ _ | .ldReg _ _ | .orReg _ _ | .andReg _ _ | .xorReg _ _ | .addReg _ _ | .sub _ _ | .shr _ _
  | .subn _ _ | .shl _ _ | .sneReg _ _ | .drw _ _ _ => none
  | .skp _ | .sknp _ | .ldFromDT _ | .ldKey _ | .ldToDT _ | .ldToST _ | .addI _ | .ldFont _ | .ldBcd _
  | .storeRegs _ | .loadRegs _ => none

end Sys2Proof
end

