-- ==== Sys2Proof/WellFormed.lean ====
section
/-! DEFINITION. Which terms of `Instr` are instructions: every operand value is one (spec 30_encoding.md R77), and a
no-op holds an unmapped word (R79). -/

namespace Sys2Proof

/-- The words whose key has no handler, as R79 lists them (with `f = w[15:12]`, the low nibble and the low byte). -/
def unmapped (w : Word) : Bool :=
  let f := w.toNat / 4096
  let low := w.toNat % 16
  let lowByte := w.toNat % 256
  if f = 0 then decide (low ≠ 0x0 ∧ low ≠ 0xE)
  else if f = 8 then decide (8 ≤ low ∧ low ≠ 0xE)
  else if f = 0xE then decide (low ≠ 0x1 ∧ low ≠ 0xE)
  else if f = 0xF then
    decide (lowByte ∉ [0x07, 0x0A, 0x15, 0x18, 0x1E, 0x29, 0x33, 0x55, 0x65])
  else false

/-- The one check an instruction needs: a no-op's word is unmapped (R79). -/
def Instr.wellFormed : Instr → Bool
  | .nop w => unmapped w
  | _ => true

end Sys2Proof
end

