-- ==== Sys2Proof/Decode.lean ====
section
/-! DEFINITION. The decoder (spec 30_encoding.md R72 to R75, R84), the encoder (R76, R77), and the match and mask of each
row (R76). UNVERIFIED: 30 of the 34 patterns are general knowledge in the spec itself (log 9, unsafe). -/

namespace Sys2Proof

/-- The primary family `w[15:12]` (R73). -/
def family (w : Word) : BitVec 4 := w.extractLsb' 12 4

/-- `x = w[11:8]` (R9, R72). -/
def fieldX (w : Word) : Reg := (w.extractLsb' 8 4).toFin

/-- `y = w[7:4]` (R9, R72). -/
def fieldY (w : Word) : Reg := (w.extractLsb' 4 4).toFin

/-- `kk = w[7:0]` (R9, R72). -/
def fieldKK (w : Word) : Byte := w.extractLsb' 0 8

/-- `n = w[3:0]` (R9, R72). -/
def fieldN (w : Word) : BitVec 4 := w.extractLsb' 0 4

/-- `nnn = w[11:0]` (R9, R72). -/
def fieldNNN (w : Word) : BitVec 12 := w.extractLsb' 0 12

/-- Secondary table 0, keyed by the low nibble (R75). -/
def decodeTable0 (w : Word) : Instr :=
  if fieldN w = 0x0#4 then .cls
  else if fieldN w = 0xE#4 then .ret
  else .nop w

/-- Secondary table 8, keyed by the low nibble (R75). -/
def decodeTable8 (w : Word) : Instr :=
  if fieldN w = 0x0#4 then .ldReg (fieldX w) (fieldY w)
  else if fieldN w = 0x1#4 then .orReg (fieldX w) (fieldY w)
  else if fieldN w = 0x2#4 then .andReg (fieldX w) (fieldY w)
  else if fieldN w = 0x3#4 then .xorReg (fieldX w) (fieldY w)
  else if fieldN w = 0x4#4 then .addReg (fieldX w) (fieldY w)
  else if fieldN w = 0x5#4 then .sub (fieldX w) (fieldY w)
  else if fieldN w = 0x6#4 then .shr (fieldX w) (fieldY w)
  else if fieldN w = 0x7#4 then .subn (fieldX w) (fieldY w)
  else if fieldN w = 0xE#4 then .shl (fieldX w) (fieldY w)
  else .nop w

/-- Secondary table E, keyed by the low nibble (R75). -/
def decodeTableE (w : Word) : Instr :=
  if fieldN w = 0x1#4 then .sknp (fieldX w)
  else if fieldN w = 0xE#4 then .skp (fieldX w)
  else .nop w

/-- Secondary table F, keyed by the low byte (R75). -/
def decodeTableF (w : Word) : Instr :=
  if fieldKK w = 0x07#8 then .ldFromDT (fieldX w)
  else if fieldKK w = 0x0A#8 then .ldKey (fieldX w)
  else if fieldKK w = 0x15#8 then .ldToDT (fieldX w)
  else if fieldKK w = 0x18#8 then .ldToST (fieldX w)
  else if fieldKK w = 0x1E#8 then .addI (fieldX w)
  else if fieldKK w = 0x29#8 then .ldFont (fieldX w)
  else if fieldKK w = 0x33#8 then .ldBcd (fieldX w)
  else if fieldKK w = 0x55#8 then .storeRegs (fieldX w)
  else if fieldKK w = 0x65#8 then .loadRegs (fieldX w)
  else .nop w

/-- The two-level dispatch (R73, R74): every word has exactly one handler. -/
def decodeTableKeyed (w : Word) : Instr :=
  if family w = 0x0#4 then decodeTable0 w
  else if family w = 0x1#4 then .jp (fieldNNN w)
  else if family w = 0x2#4 then .call (fieldNNN w)
  else if family w = 0x3#4 then .seImm (fieldX w) (fieldKK w)
  else if family w = 0x4#4 then .sneImm (fieldX w) (fieldKK w)
  else if family w = 0x5#4 then .seReg (fieldX w) (fieldY w)
  else if family w = 0x6#4 then .ldImm (fieldX w) (fieldKK w)
  else if family w = 0x7#4 then .addImm (fieldX w) (fieldKK w)
  else if family w = 0x8#4 then decodeTable8 w
  else if family w = 0x9#4 then .sneReg (fieldX w) (fieldY w)
  else if family w = 0xA#4 then .ldI (fieldNNN w)
  else if family w = 0xB#4 then .jpV0 (fieldNNN w)
  else if family w = 0xC#4 then .rnd (fieldX w) (fieldKK w)
  else if family w = 0xD#4 then .drw (fieldX w) (fieldY w) (fieldN w)
  else if family w = 0xE#4 then decodeTableE w
  else decodeTableF w

/-! ### The encoder -/

/-- A register number as a 4-bit field. -/
def regField (r : Reg) : BitVec 4 := BitVec.ofFin r

/-- A word of format NNN: family, 12-bit address (R71). -/
def encodeNNN (op : BitVec 4) (nnn : BitVec 12) : Word := op ++ nnn

/-- A word of format XKK: family, register, immediate (R71). -/
def encodeXKK (op : BitVec 4) (x : Reg) (kk : Byte) : Word := op ++ regField x ++ kk

/-- A word of format XY or XYN: family, two registers, low nibble (R71). -/
def encodeXYN (op : BitVec 4) (x y : Reg) (n : BitVec 4) : Word := op ++ regField x ++ regField y ++ n

/-- The canonical word of an instruction (R76, R77); a no-op has the word it was read from. -/
def encode : Instr → Word
  | .cls => 0x00E0
  | .ret => 0x00EE
  | .jp nnn => encodeNNN 0x1 nnn
  | .call nnn => encodeNNN 0x2 nnn
  | .seImm x kk => encodeXKK 0x3 x kk
  | .sneImm x kk => encodeXKK 0x4 x kk
  | .seReg x y => encodeXYN 0x5 x y 0x0
  | .ldImm x kk => encodeXKK 0x6 x kk
  | .addImm x kk => encodeXKK 0x7 x kk
  | .ldReg x y => encodeXYN 0x8 x y 0x0
  | .orReg x y => encodeXYN 0x8 x y 0x1
  | .andReg x y => encodeXYN 0x8 x y 0x2
  | .xorReg x y => encodeXYN 0x8 x y 0x3
  | .addReg x y => encodeXYN 0x8 x y 0x4
  | .sub x y => encodeXYN 0x8 x y 0x5
  | .shr x y => encodeXYN 0x8 x y 0x6
  | .subn x y => encodeXYN 0x8 x y 0x7
  | .shl x y => encodeXYN 0x8 x y 0xE
  | .sneReg x y => encodeXYN 0x9 x y 0x0
  | .ldI nnn => encodeNNN 0xA nnn
  | .jpV0 nnn => encodeNNN 0xB nnn
  | .rnd x kk => encodeXKK 0xC x kk
  | .drw x y n => encodeXYN 0xD x y n
  | .skp x => encodeXKK 0xE x 0x9E
  | .sknp x => encodeXKK 0xE x 0xA1
  | .ldFromDT x => encodeXKK 0xF x 0x07
  | .ldKey x => encodeXKK 0xF x 0x0A
  | .ldToDT x => encodeXKK 0xF x 0x15
  | .ldToST x => encodeXKK 0xF x 0x18
  | .addI x => encodeXKK 0xF x 0x1E
  | .ldFont x => encodeXKK 0xF x 0x29
  | .ldBcd x => encodeXKK 0xF x 0x33
  | .storeRegs x => encodeXKK 0xF x 0x55
  | .loadRegs x => encodeXKK 0xF x 0x65
  | .nop w => w

/-- The other reading of the source, `DECODE_MODE = exact`: an alias word is a no-op (R78, D1). -/
def decodeExact (w : Word) : Instr :=
  if encode (decodeTableKeyed w) = w then decodeTableKeyed w else .nop w

/-- The decoder under each reading. -/
def decodeIn : DecodeMode → Word → Instr
  | .tableKeyed, w => decodeTableKeyed w
  | .exact, w => decodeExact w

/-- The machine's decoder: total, and a function of the word alone (R73, R93). -/
def decode (w : Word) : Instr := decodeIn Config.decodeMode w

/-- Why bytes hold no instruction: an instruction is two bytes (R70), and fewer are there. The cycle never meets it.
DESIGN CHOICE: log 32, safe. -/
inductive DecodeError where
  | truncated (length : Nat)
  deriving DecidableEq, Repr

/-- Read one instruction from bytes in memory order, high byte first (R54, R70), with the bytes that follow it. -/
def decodeBytes : List Byte → Except DecodeError (Instr × List Byte)
  | hi :: lo :: rest => .ok (decode (hi ++ lo), rest)
  | bytes => .error (.truncated bytes.length)

/-- The two bytes of a word in memory order (R54). -/
def wordBytes (w : Word) : List Byte := [w.extractLsb' 8 8, w.extractLsb' 0 8]

/-- The instruction word of a table number: bits at and above `nbits` are zero, and an instruction is 16 bits (R70). -/
def tableWord (nbits w : Nat) : Word := BitVec.ofNat 16 (w % 2 ^ nbits)

/-- What the decoder reads from an instruction whose bits are `w`, numbered as spec/opcode_table.json numbers them. -/
def decodeTableWord (nbits w : Nat) : Option Instr :=
  match decodeBytes (wordBytes (tableWord nbits w)) with
  | .ok (i, _) => some i
  | .error _ => none

/-- The dispatch match and mask of an instruction's row (R76); the no-op is the table's default row. -/
def Instr.matchMask : Instr → Word × Word
  | .cls => (0x0000, 0xF00F)
  | .ret => (0x000E, 0xF00F)
  | .jp _ => (0x1000, 0xF000)
  | .call _ => (0x2000, 0xF000)
  | .seImm _ _ => (0x3000, 0xF000)
  | .sneImm _ _ => (0x4000, 0xF000)
  | .seReg _ _ => (0x5000, 0xF000)
  | .ldImm _ _ => (0x6000, 0xF000)
  | .addImm _ _ => (0x7000, 0xF000)
  | .ldReg _ _ => (0x8000, 0xF00F)
  | .orReg _ _ => (0x8001, 0xF00F)
  | .andReg _ _ => (0x8002, 0xF00F)
  | .xorReg _ _ => (0x8003, 0xF00F)
  | .addReg _ _ => (0x8004, 0xF00F)
  | .sub _ _ => (0x8005, 0xF00F)
  | .shr _ _ => (0x8006, 0xF00F)
  | .subn _ _ => (0x8007, 0xF00F)
  | .shl _ _ => (0x800E, 0xF00F)
  | .sneReg _ _ => (0x9000, 0xF000)
  | .ldI _ => (0xA000, 0xF000)
  | .jpV0 _ => (0xB000, 0xF000)
  | .rnd _ _ => (0xC000, 0xF000)
  | .drw _ _ _ => (0xD000, 0xF000)
  | .skp _ => (0xE00E, 0xF00F)
  | .sknp _ => (0xE001, 0xF00F)
  | .ldFromDT _ => (0xF007, 0xF0FF)
  | .ldKey _ => (0xF00A, 0xF0FF)
  | .ldToDT _ => (0xF015, 0xF0FF)
  | .ldToST _ => (0xF018, 0xF0FF)
  | .addI _ => (0xF01E, 0xF0FF)
  | .ldFont _ => (0xF029, 0xF0FF)
  | .ldBcd _ => (0xF033, 0xF0FF)
  | .storeRegs _ => (0xF055, 0xF0FF)
  | .loadRegs _ => (0xF065, 0xF0FF)
  | .nop _ => (0x0000, 0x0000)

/-- The word `w` selects the row of `i` (R76): `w AND mask = match`. -/
abbrev Instr.selectedBy (i : Instr) (w : Word) : Prop := w &&& i.matchMask.2 = i.matchMask.1

/-- The words that are canonical for no instruction and yet select a handler (R16, R78). -/
def aliasWord (w : Word) : Bool := decide (encode (decodeTableKeyed w) ≠ w)

end Sys2Proof
end

