-- ==== Sys2Proof/Machine/State.lean ====
section
/-! DEFINITION. The state of the machine and its reset value (spec 10_state.md), the faults (60_exceptions.md R162) and
the refusals. -/

namespace Sys2Proof.Machine

/-- Memory as the cells that differ from the reset contents, addresses rising (R32, R50; log 15). -/
abbrev Memory := List Host.Cell

/-- The video buffer, one bit a cell as in R28 and R193: bit `r*W + c` is the cell of column `c`, row `r` (log 22). -/
abbrev Video := BitVec Config.videoCells

/-- The held bit of each key, 0 to F (R29). -/
abbrev Keys := Vector Bool 16

/-- Everything the spec gives the machine (R34, R35), and the model's own seed and draw counter. -/
structure State where
  /-- the 4096-byte memory (R32, R50) -/
  mem : Memory
  /-- V0 to VF (R20) -/
  v : Vector Byte 16
  /-- the index register `I` (R22) -/
  i : Word
  /-- the program counter (R23) -/
  pc : Word
  /-- the return addresses (R24) -/
  stack : Vector Word Config.stackDepth
  /-- the number of live stack entries, 0 to 16 (R25) -/
  sp : Fin 17
  /-- the delay timer `DT` (R26) -/
  dt : Byte
  /-- the sound timer `ST` (R27) -/
  st : Byte
  /-- the word fetched this cycle (R30) -/
  opcode : Word
  /-- the video buffer (R28) -/
  video : Video
  /-- the keypad as the host last wrote it (R29, R149) -/
  key : Keys
  /-- which run's random bytes are drawn, a free input of the launch: the model's own, in place of the generator, which is
  seeded anew at each construction (R31, R35, R134). DESIGN CHOICE: log 13, unsafe for comparing two runs of one seed. -/
  seed : Nat
  /-- how many random bytes have been drawn: the model's own (R12, R31). DESIGN CHOICE: log 13, safe. -/
  draws : Nat
  deriving DecidableEq, Repr

/-- The model faults F1 to F5 of R162. Each ends the run (R11). DESIGN CHOICE: log 1, safe. -/
inductive Fault where
  /-- F1, raised by the fetch, `DRW`, `LD B, Vx`, `LD [I], Vx` and `LD Vx, [I]` at an address above 0xFFF (R53); safe. -/
  | memOutOfRange (a : Nat)
  /-- F2, raised by `CALL` with `sp = 16`, with the return address (R101); safe. -/
  | stackOverflow (pc : Word)
  /-- F3, raised by `RET` with `sp = 0`, with the advanced pc (R102); safe. -/
  | stackUnderflow (pc : Word)
  /-- F4, raised by `SKP` and `SKNP` with `V[x]` above 15 (R146, R147); safe. -/
  | keyIndexOutOfRange (k : Byte)
  /-- F5, raised by `DRW` for a set pixel past the last cell (R139 (c)); safe. -/
  | videoOutOfRange (idx : Nat)
  deriving DecidableEq, Repr

/-- Why the model gives a request no meaning. -/
inductive Refusal where
  /-- raised by an arm of `exec` whose instruction has no meaning yet; none has; safe. -/
  | notModelled (mnemonic : String)
  /-- raised by the ROM load of an image above 3584 bytes (R183, log 25), never by a cycle; safe. -/
  | romTooLong (length : Nat)
  deriving DecidableEq, Repr

/-- What a step or a meaning answers. -/
abbrev Result := Host.Outcome State Fault Refusal

/-- The machine right after reset (R35). The spec gives no contents for `video` and `key`: all off and all up are
DESIGN CHOICE, logs 10 and 11, unsafe; `seed` and `draws` are the
model's own, log 13. -/
def State.reset : State where
  mem := []
  v := Vector.replicate 16 0
  i := 0
  pc := BitVec.ofNat 16 Config.programOrigin
  stack := Vector.replicate Config.stackDepth 0
  sp := 0
  dt := 0
  st := 0
  opcode := 0
  video := 0
  key := Vector.replicate 16 false
  seed := 0
  draws := 0

end Sys2Proof.Machine
end

