-- ==== Sys2Proof/Machine/Flags.lean ====
section
/-! DEFINITION. Every flag computation of the spec: what the flag-producing instructions put into `VF`
(spec 10_state.md R21; 43_arithmetic_logic.md R120). -/

namespace Sys2Proof.Machine

/-- A flag as the byte `VF` holds: 0 or 1 (R21). -/
def flagByte (f : Bool) : Byte := if f then 1 else 0

/-- The carry of an addition: the 9-bit sum exceeds 255 (R125). -/
def carryFlag (a b : Byte) : Bool := decide (255 < a.toNat + b.toNat)

/-- The flag of a subtraction: minuend strictly greater than subtrahend (R120, R126; 90 C3). -/
def greaterFlag (minuend subtrahend : Byte) : Bool := decide (subtrahend.toNat < minuend.toNat)

/-- The bit a right shift moves out (R127). -/
def lowBitFlag (a : Byte) : Bool := a.getLsbD 0

/-- The bit a left shift moves out (R129). -/
def highBitFlag (a : Byte) : Bool := a.getLsbD 7

end Sys2Proof.Machine
end

