-- ==== Sys2Proof/Machine/Memory.lean ====
section
/-! DEFINITION. Memory as data (spec 20_memory.md R50, R51): what an unlisted address reads as, reading, writing, and the
canonical form. -/

namespace Sys2Proof.Machine

/-- What an address that nothing has written holds: the fontset at 0x050, and zero elsewhere (R35, R51; log 15). -/
def Memory.initial (a : Nat) : Byte :=
  if Config.fontBase ≤ a then Config.fontset.getD (a - Config.fontBase) 0 else 0

/-- The byte at an address. -/
def Memory.lookup : Memory → Nat → Byte
  | [], a => Memory.initial a
  | (k, c) :: m, a => if k = a then c else Memory.lookup m a

/-- Put a cell in front, unless it holds what its address reads as when unlisted. -/
def Memory.push (a : Nat) (b : Byte) (m : Memory) : Memory :=
  if b = Memory.initial a then m else (a, b) :: m

/-- The memory after byte `b` is stored at `a`, in canonical form when `m` is. -/
def Memory.store : Memory → Nat → Byte → Memory
  | [], a, b => Memory.push a b []
  | (k, c) :: m, a, b =>
    if a < k then Memory.push a b ((k, c) :: m)
    else if a = k then Memory.push a b m
    else (k, c) :: Memory.store m a b

/-- Every address listed is at least `lo`, they rise strictly, each exists (R50), and no cell is redundant. -/
def Memory.wfFrom : Nat → Memory → Bool
  | _, [] => true
  | lo, (k, c) :: m =>
    decide (lo ≤ k) && decide (k < Config.memSize) && decide (c ≠ Memory.initial k) && Memory.wfFrom (k + 1) m

/-- The canonical form of memory: equal memories are equal lists. -/
def Memory.wf (m : Memory) : Bool := Memory.wfFrom 0 m

end Sys2Proof.Machine
end

