-- ==== Sys2Proof/Machine/Operands.lean ====
section
/-! DEFINITION. Every operand form of the spec: immediates, effective addresses, digits, and the registers of a block
transfer (spec 30_encoding.md R72; 42_data_movement.md R116, R119; 44_bcd_random.md R132). -/

namespace Sys2Proof.Machine

/-- `zext_16(nnn)` (R72). -/
def addressOf (nnn : BitVec 12) : Word := nnn.zeroExtend 16

/-- `zext_16` of a register's value (R72). -/
def wordOf (b : Byte) : Word := b.zeroExtend 16

/-- The effective address `I + k`, a natural number without wrap (R53, R119). -/
def effective (i : Word) (k : Nat) : Nat := i.toNat + k

/-- `nnn + V[0]`, not reduced to 12 bits (R107). -/
def offsetTarget (nnn : BitVec 12) (v0 : Byte) : Word := addressOf nnn + wordOf v0

/-- The address of a digit's glyph, on the whole byte (R116). UNVERIFIED: log 21, unsafe above 15. -/
def glyphAddress (digit : Byte) : Word := BitVec.ofNat 16 Config.fontBase + 5 * wordOf digit

/-- The decimal digits of a byte: hundreds, tens, ones (R132). -/
def bcdDigits (b : Byte) : List Byte := [b / 100, (b / 10) % 10, b % 10]

/-- `V[0]` to `V[x]`, in the order of the block transfers (R117, R118). -/
def regsUpTo (x : Reg) : List Reg := (List.finRange 16).filter (· ≤ x)

/-- The lowest-indexed held key (R148). -/
def lowestKey (keys : Keys) : Option Reg := (List.finRange 16).find? (fun k => keys[k.val])

end Sys2Proof.Machine
end

