-- ==== Sys2Proof/Machine/Ops.lean ====
section
/-! DEFINITION. The named operations over registers, memory, stack, timers and inputs, the fetch, and `raise`: this
hardware takes no exception (spec 60_exceptions.md R160, R164, R165), so there is no entry and no return; `raise` (R11) is
the one operation by which a run ends. -/

namespace Sys2Proof.Machine

/-! ### Faults -/

/-- `raise <Fault>` (R11): the run has no meaning from here. DESIGN CHOICE: log 1, safe. -/
def raise (f : Fault) : Result := .fault f

/-- The next state, or the fault that was raised on the way to it. -/
def orRaise : Except Fault State → Result
  | .ok s => .next s
  | .error f => raise f

/-! ### Registers -/

/-- `V[r]` (R8, R20). -/
def State.getV (s : State) (r : Reg) : Byte := s.v[r.val]

/-- `V[r] <- b` (R8, R20). -/
def State.setV (s : State) (r : Reg) (b : Byte) : State := { s with v := s.v.set r.val b }

/-- `I <- w` (R22). -/
def State.setI (s : State) (w : Word) : State := { s with i := w }

/-- `pc <- t` (R23). -/
def State.setPc (s : State) (t : Word) : State := { s with pc := t }

/-- `DT <- b` (R26). -/
def State.setDT (s : State) (b : Byte) : State := { s with dt := b }

/-- `ST <- b` (R27). -/
def State.setST (s : State) (b : Byte) : State := { s with st := b }

/-- Memory replaced (R32). -/
def State.setMem (s : State) (m : Memory) : State := { s with mem := m }

/-- The video buffer replaced (R28). -/
def State.setVideo (s : State) (video : Video) : State := { s with video := video }

/-- The return stack and its pointer replaced (R24, R25). -/
def State.setStack (s : State) (stack : Vector Word Config.stackDepth) (sp : Fin 17) : State :=
  { s with stack := stack, sp := sp }

/-- The random source replaced: another run's bytes, and how many of them are drawn (R134). -/
def State.setSource (s : State) (seed draws : Nat) : State := { s with seed := seed, draws := draws }

/-- One more random byte drawn (R12). -/
def State.countDraw (s : State) : State := { s with draws := s.draws + 1 }

/-- The result into `V[x]`, then the flag into `VF`: with `x = 15` the flag is what stays (R13, R131).
UNVERIFIED: log 16, unsafe for `x = 15`. -/
def State.setResultFlag (s : State) (x : Reg) (result : Byte) (flag : Bool) : State :=
  (s.setV x result).setV .vf (flagByte flag)

/-! ### Memory -/

/-- `MemRead(a, 1)` (R10, R53). UNVERIFIED above 0xFFF: log 2, safe. -/
def State.memRead (s : State) (a : Nat) : Except Fault Byte :=
  if a < Config.memSize then .ok (s.mem.lookup a) else .error (.memOutOfRange a)

/-- `MemWrite(a, 1, b)` (R10, R53). UNVERIFIED above 0xFFF: log 2, safe. -/
def State.memWrite (s : State) (a : Nat) (b : Byte) : Except Fault State :=
  if a < Config.memSize then .ok (s.setMem (s.mem.store a b)) else .error (.memOutOfRange a)

/-- The check before a multi-byte access of `count` bytes at `I`: its highest address exists (R119). -/
def State.checkBlock (s : State) (count : Nat) : Except Fault Unit :=
  if count = 0 ∨ effective s.i (count - 1) < Config.memSize then .ok ()
  else .error (.memOutOfRange (effective s.i (count - 1)))

/-- `count` bytes from `a` up, in ascending order (R57). -/
def State.readBytes (s : State) : Nat → Nat → Except Fault (List Byte)
  | _, 0 => .ok []
  | a, count + 1 =>
    match s.memRead a with
    | .error f => .error f
    | .ok b =>
      match s.readBytes (a + 1) count with
      | .error f => .error f
      | .ok bs => .ok (b :: bs)

/-- Store bytes from `a` up, in ascending order (R57). -/
def State.writeBytes : State → Nat → List Byte → Except Fault State
  | s, _, [] => .ok s
  | s, a, b :: bs =>
    match s.memWrite a b with
    | .error f => .error f
    | .ok t => t.writeBytes (a + 1) bs

/-- Load each register `r` of a list from `I + r` (R118). -/
def State.loadEach : State → List Reg → Except Fault State
  | s, [] => .ok s
  | s, r :: rs =>
    match s.memRead (effective s.i r.val) with
    | .error f => .error f
    | .ok b => (s.setV r b).loadEach rs

/-! ### Control -/

/-- The conditional skip: one instruction width, never more (R108). -/
def State.skipIf (s : State) (c : Bool) : State := if c then s.setPc (s.pc + 2) else s

/-- Undo the advance of `pc`: the key wait repeats its instruction (R148). -/
def State.rewind (s : State) : State := s.setPc (s.pc - 2)

/-- Push `pc`: store at `stack[sp]`, then increment `sp` (R101). UNVERIFIED at `sp = 16`: log 3, safe. -/
def State.pushPc (s : State) : Except Fault State :=
  if h : s.sp.val < Config.stackDepth then
    .ok (s.setStack (s.stack.set s.sp.val s.pc) ⟨s.sp.val + 1, Nat.succ_lt_succ h⟩)
  else .error (.stackOverflow s.pc)

/-- Pop into `pc`: decrement `sp`, then load `stack[sp]` (R102). UNVERIFIED at `sp = 0`: log 3, safe. -/
def State.popPc (s : State) : Except Fault State :=
  match s.sp with
  | ⟨0, _⟩ => .error (.stackUnderflow s.pc)
  | ⟨k + 1, h⟩ => .ok ((s.setStack s.stack ⟨k, Nat.lt_of_succ_lt h⟩).setPc (s.stack[k]'(Nat.lt_of_succ_lt_succ h)))

/-! ### Inputs -/

/-- `key[k]` for an index read from a register; above 15 there is no key (R146). UNVERIFIED: log 4, safe. -/
def State.keyHeld (s : State) (k : Byte) : Except Fault Bool :=
  if h : k.toNat < 16 then .ok s.key[k.toNat] else .error (.keyIndexOutOfRange k)

/-- `draw()`: a fresh free byte, and the state that has drawn it (R12, R133). DESIGN CHOICE: log 13, safe. -/
def State.draw (s : State) : Byte × State := (Config.freeByte s.seed s.draws, s.countDraw)

/-! ### The cycle's parts -/

/-- The fetch: two bytes at `pc`, high byte first (R54, R91). -/
def State.fetch (s : State) : Except Fault Word :=
  match s.memRead s.pc.toNat with
  | .error f => .error f
  | .ok hi =>
    match s.memRead (s.pc.toNat + 1) with
    | .error f => .error f
    | .ok lo => .ok (hi ++ lo)

/-- Latch the fetched word and advance `pc` by 2, before dispatch (R90, R92). -/
def State.advance (s : State) (w : Word) : State := { s with opcode := w, pc := s.pc + 2 }

/-- A timer's step: one down, floored at zero (R94). -/
def countDown (t : Byte) : Byte := if t = 0 then 0 else t - 1

/-- Decrement both timers (R94). -/
def State.tick (s : State) : State := { s with dt := countDown s.dt, st := countDown s.st }

/-- The timers step after the instruction, if it gave a next state (R90, R94). -/
def thenTick : Result → Result
  | .next s => .next s.tick
  | .fault f => .fault f
  | .refused r => .refused r

end Sys2Proof.Machine
end

