-- ==== Sys2Proof/Machine/Arithmetic.lean ====
section
/-! DEFINITION. Arithmetic and logic (spec 43_arithmetic_logic.md). -/

namespace Sys2Proof.Machine

/-- R121: no flag. -/
def execAddImm (x : Reg) (kk : Byte) (s : State) : Result := .next (s.setV x (s.getV x + kk))

/-- R122: no flag. UNVERIFIED: log 19, unsafe. -/
def execOrReg (x y : Reg) (s : State) : Result := .next (s.setV x (s.getV x ||| s.getV y))

/-- R123: no flag. UNVERIFIED: log 19, unsafe. -/
def execAndReg (x y : Reg) (s : State) : Result := .next (s.setV x (s.getV x &&& s.getV y))

/-- R124: no flag. UNVERIFIED: log 19, unsafe. -/
def execXorReg (x y : Reg) (s : State) : Result := .next (s.setV x (s.getV x ^^^ s.getV y))

/-- R125, R131. -/
def execAddReg (x y : Reg) (s : State) : Result :=
  .next (s.setResultFlag x (s.getV x + s.getV y) (carryFlag (s.getV x) (s.getV y)))

/-- R126, R131. -/
def execSub (x y : Reg) (s : State) : Result :=
  .next (s.setResultFlag x (s.getV x - s.getV y) (greaterFlag (s.getV x) (s.getV y)))

/-- R127, R131: `V[x]` in place, `y` ignored. UNVERIFIED: log 18, unsafe. -/
def execShr (x _y : Reg) (s : State) : Result :=
  .next (s.setResultFlag x (s.getV x >>> 1) (lowBitFlag (s.getV x)))

/-- R128, R131. -/
def execSubn (x y : Reg) (s : State) : Result :=
  .next (s.setResultFlag x (s.getV y - s.getV x) (greaterFlag (s.getV y) (s.getV x)))

/-- R129, R131: `V[x]` in place, `y` ignored. UNVERIFIED: log 18, unsafe. -/
def execShl (x _y : Reg) (s : State) : Result :=
  .next (s.setResultFlag x (s.getV x <<< 1) (highBitFlag (s.getV x)))

/-- R130: wraps at 16 bits, no flag. UNVERIFIED: log 17, unsafe. -/
def execAddI (x : Reg) (s : State) : Result := .next (s.setI (s.i + wordOf (s.getV x)))

end Sys2Proof.Machine
end

