-- ==== Sys2Proof/Machine/BcdRandom.lean ====
section
/-! DEFINITION. Decimal digits and random bytes (spec 44_bcd_random.md). -/

namespace Sys2Proof.Machine

/-- R132. -/
def execLdBcd (x : Reg) (s : State) : Result :=
  match s.checkBlock 3 with
  | .error f => raise f
  | .ok _ => orRaise (s.writeBytes (effective s.i 0) (bcdDigits (s.getV x)))

/-- R133: a free byte, masked. -/
def execRnd (x : Reg) (kk : Byte) (s : State) : Result := .next (s.draw.2.setV x (s.draw.1 &&& kk))

end Sys2Proof.Machine
end

