-- ==== Sys2Proof/Machine/ControlFlow.lean ====
section
/-! DEFINITION. Control flow (spec 41_control_flow.md) and the no-op (40_cycle_and_dispatch.md R96). `pc` already holds the
address after the instruction (R92). -/

namespace Sys2Proof.Machine

/-- R100. -/
def execJp (nnn : BitVec 12) (s : State) : Result := .next (s.setPc (addressOf nnn))

/-- R101. -/
def execCall (nnn : BitVec 12) (s : State) : Result :=
  match s.pushPc with
  | .ok t => .next (t.setPc (addressOf nnn))
  | .error f => raise f

/-- R102. -/
def execRet (s : State) : Result := orRaise s.popPc

/-- R103. -/
def execSeImm (x : Reg) (kk : Byte) (s : State) : Result := .next (s.skipIf (decide (s.getV x = kk)))

/-- R104. -/
def execSneImm (x : Reg) (kk : Byte) (s : State) : Result := .next (s.skipIf (decide (s.getV x ≠ kk)))

/-- R105. -/
def execSeReg (x y : Reg) (s : State) : Result := .next (s.skipIf (decide (s.getV x = s.getV y)))

/-- R106. -/
def execSneReg (x y : Reg) (s : State) : Result := .next (s.skipIf (decide (s.getV x ≠ s.getV y)))

/-- R107. -/
def execJpV0 (nnn : BitVec 12) (s : State) : Result := .next (s.setPc (offsetTarget nnn (s.getV 0)))

/-- R96: nothing beyond the cycle around it. -/
def execNop (s : State) : Result := .next s

end Sys2Proof.Machine
end

