-- ==== Sys2Proof/Machine/DataMovement.lean ====
section
/-! DEFINITION. Data movement (spec 42_data_movement.md). -/

namespace Sys2Proof.Machine

/-- R110. -/
def execLdImm (x : Reg) (kk : Byte) (s : State) : Result := .next (s.setV x kk)

/-- R111. -/
def execLdReg (x y : Reg) (s : State) : Result := .next (s.setV x (s.getV y))

/-- R112. -/
def execLdI (nnn : BitVec 12) (s : State) : Result := .next (s.setI (addressOf nnn))

/-- R113: the timer before this cycle's decrement. -/
def execLdFromDT (x : Reg) (s : State) : Result := .next (s.setV x s.dt)

/-- R114. -/
def execLdToDT (x : Reg) (s : State) : Result := .next (s.setDT (s.getV x))

/-- R115. -/
def execLdToST (x : Reg) (s : State) : Result := .next (s.setST (s.getV x))

/-- R116. -/
def execLdFont (x : Reg) (s : State) : Result := .next (s.setI (glyphAddress (s.getV x)))

/-- R117, R119: `I` stays. UNVERIFIED: log 20, unsafe. -/
def execStoreRegs (x : Reg) (s : State) : Result :=
  match s.checkBlock (x.val + 1) with
  | .error f => raise f
  | .ok _ => orRaise (s.writeBytes (effective s.i 0) ((regsUpTo x).map s.getV))

/-- R118, R119: `I` stays. UNVERIFIED: log 20, unsafe. -/
def execLoadRegs (x : Reg) (s : State) : Result :=
  match s.checkBlock (x.val + 1) with
  | .error f => raise f
  | .ok _ => orRaise (s.loadEach (regsUpTo x))

end Sys2Proof.Machine
end

