-- ==== Sys2Proof/Machine/Sprite.lean ====
section
/-! DEFINITION. The sprite engine (spec 45_display.md R136 to R140), for any video size and under each reading of the
edges (93_implementation_defined.md U6). -/

namespace Sys2Proof.Machine

/-- Where one set sprite pixel goes, in a buffer of `cells` cells. -/
inductive Placement (cells : Nat) where
  /-- onto this cell -/
  | cell (k : Fin cells)
  /-- nowhere: the reading does not draw it -/
  | clipped
  /-- past the buffer, at this index (R139 (c)) -/
  | outside (idx : Nat)
  deriving DecidableEq, Repr

/-- The buffer while a sprite is drawn, and whether a pixel has been turned off so far (R138, R140). -/
structure Canvas (cells : Nat) where
  video : BitVec cells
  hit : Bool
  deriving DecidableEq, Repr

/-- The cell of an index, or past the buffer. -/
def placeAt (cells idx : Nat) : Placement cells :=
  if h : idx < cells then .cell ⟨idx, h⟩ else .outside idx

/-- Where the pixel of sprite row `r` and column `c` goes, for an origin `(x0, y0)` on a `w` by `h` screen
(R139; readings A to D of U6). UNVERIFIED: log 5, unsafe outside the common region. -/
def place (edge : DrawEdge) (w h x0 y0 r c : Nat) : Placement (w * h) :=
  match edge with
  | .rowWrapLinearSpill => placeAt (w * h) ((y0 + r) % h * w + x0 + c)
  | .rowWrapColumnClip => if w ≤ x0 + c then .clipped else placeAt (w * h) ((y0 + r) % h * w + x0 + c)
  | .linearSpill => placeAt (w * h) ((y0 + r) * w + x0 + c)
  | .clip => if w ≤ x0 + c ∨ h ≤ y0 + r then .clipped else placeAt (w * h) ((y0 + r) * w + x0 + c)

/-- The columns of the set pixels of one sprite row: column `c` is bit `7 - c` (R136).
UNVERIFIED orientation: log 22, unsafe. -/
def rowPixels (b : Byte) : List Nat := (List.range 8).filter (fun c => b.getLsbD (7 - c))

/-- The set pixels of a sprite as (row, column), in drawing order, its first row numbered `r` (R138). -/
def spritePixels (r : Nat) : List Byte → List (Nat × Nat)
  | [] => []
  | b :: bs => (rowPixels b).map (fun c => (r, c)) ++ spritePixels (r + 1) bs

/-- Exclusive-or one set pixel onto the buffer (R138, R140). -/
def drawPixel {cells : Nat} (cv : Canvas cells) : Placement cells → Except Fault (Canvas cells)
  | .cell k => .ok ⟨cv.video ^^^ BitVec.twoPow cells k.val, cv.hit || cv.video.getLsbD k.val⟩
  | .clipped => .ok cv
  | .outside idx => .error (.videoOutOfRange idx)

/-- Exclusive-or set pixels onto the buffer in order, up to the first that is past it (R138). -/
def drawPixels (edge : DrawEdge) (w h x0 y0 : Nat) (cv : Canvas (w * h)) :
    List (Nat × Nat) → Except Fault (Canvas (w * h))
  | [] => .ok cv
  | (r, c) :: ps =>
    match drawPixel cv (place edge w h x0 y0 r c) with
    | .error f => .error f
    | .ok cv' => drawPixels edge w h x0 y0 cv' ps

/-- Draw sprite rows at an origin given by two register values, reduced to the screen (R138). -/
def drawSprite (edge : DrawEdge) (w h : Nat) (vx vy : Byte) (rows : List Byte) (video : BitVec (w * h)) :
    Except Fault (Canvas (w * h)) :=
  drawPixels edge w h (vx.toNat % w) (vy.toNat % h) ⟨video, false⟩ (spritePixels 0 rows)

end Sys2Proof.Machine
end

