-- ==== Sys2Proof/Machine/Display.lean ====
section
/-! DEFINITION. The display instructions (spec 45_display.md). -/

namespace Sys2Proof.Machine

/-- R137. -/
def execCls (s : State) : Result := .next (s.setVideo 0)

/-- Put a drawn canvas back: the buffer, and the collision into `VF`, always (R138, R140). -/
def State.finishDraw (s : State) (cv : Canvas Config.videoCells) : State :=
  (s.setVideo cv.video).setV .vf (flagByte cv.hit)

/-- R138: range check, sprite rows, pixels, then `VF`. -/
def execDrw (x y : Reg) (n : BitVec 4) (s : State) : Result :=
  match s.checkBlock n.toNat with
  | .error f => raise f
  | .ok _ =>
    match s.readBytes (effective s.i 0) n.toNat with
    | .error f => raise f
    | .ok rows =>
      match drawSprite Config.drawEdge Config.videoWidth Config.videoHeight (s.getV x) (s.getV y) rows s.video with
      | .error f => raise f
      | .ok cv => .next (s.finishDraw cv)

end Sys2Proof.Machine
end

