-- ==== Sys2Proof/Machine/Keypad.lean ====
section
/-! DEFINITION. The keypad instructions (spec 46_input.md). -/

namespace Sys2Proof.Machine

/-- R146. -/
def execSkp (x : Reg) (s : State) : Result :=
  match s.keyHeld (s.getV x) with
  | .error f => raise f
  | .ok held => .next (s.skipIf held)

/-- R147. -/
def execSknp (x : Reg) (s : State) : Result :=
  match s.keyHeld (s.getV x) with
  | .error f => raise f
  | .ok held => .next (s.skipIf (!held))

/-- R148: the lowest held key, or the same instruction again. UNVERIFIED level sensitivity: log 26, unsafe. -/
def execLdKey (x : Reg) (s : State) : Result :=
  match lowestKey s.key with
  | some k => .next (s.setV x (BitVec.ofNat 8 k.val))
  | none => .next s.rewind

end Sys2Proof.Machine
end

