-- ==== Sys2Proof/Machine/Step.lean ====
section
/-! DEFINITION. The cycle (spec 40_cycle_and_dispatch.md R90), and the placing of an instruction where it is fetched. -/

namespace Sys2Proof.Machine

/-- One cycle: fetch, advance, dispatch and execute, timers (R90). -/
def step (s : State) : Host.Outcome State Fault Refusal :=
  match s.fetch with
  | .error f => raise f
  | .ok w => thenTick (exec (decode w) (s.advance w))

/-- The state with an instruction's two bytes at `pc` and `pc + 1`, where the fetch reads them (R54, R91); unchanged where
`pc` is above 0xFFE, since no fetch can succeed there. It stands for the ROM load (R182; DESIGN CHOICE: log 25, safe). -/
def State.withFetchWord (s : State) (nbits w : Nat) : State :=
  match s.writeBytes s.pc.toNat (wordBytes (tableWord nbits w)) with
  | .ok t => t
  | .error _ => s

end Sys2Proof.Machine
end

