-- ==== Sys2Proof/Machine/Environment.lean ====
section
/-! DEFINITION. The engine with its host: construction, the ROM load, cycle requests, key writes and the reading of the
video buffer (spec 70_reset_and_hazards.md R180 to R183, R193, R194; 20_memory.md R63), and the sticky fault mark
(00_scope.md R11, 10_state.md R37). DESIGN CHOICE: log 29. -/

namespace Sys2Proof.Machine

/-- The state after reset, with what the spec leaves free at launch: the two arrays and the random source (R35, R181). -/
def State.launch (video : Video) (key : Keys) (seed : Nat) : State :=
  { State.reset with video := video, key := key, seed := seed }

/-- The host writes the keypad array (R194). -/
def State.setKeys (s : State) (key : Keys) : State := { s with key := key }

/-- The ROM load: bytes copied verbatim from the program origin up (R182); an image above 3584 bytes is refused (R183).
UNVERIFIED refusal: log 25, safe. -/
def State.loadRom (s : State) (rom : List Byte) : Result :=
  if rom.length ≤ Config.romMax then orRaise (s.writeBytes Config.programOrigin rom)
  else .refused (.romTooLong rom.length)

/-- The life of an engine: the order of events of R193, and the fault mark of R37. -/
inductive Engine where
  /-- not constructed yet -/
  | absent
  /-- reset has happened, no ROM is loaded, no cycle may be asked for (R166, R180) -/
  | constructed (s : State)
  /-- the ROM is loaded: cycles may be asked for -/
  | running (s : State)
  /-- a fault was raised: no state has a meaning from here on (R11, R162) -/
  | faulted (f : Fault)
  deriving DecidableEq, Repr

/-- What the host can send (R193, R194). -/
inductive Event where
  /-- construct the engine, with the launch contents of the two free arrays and the seed of the random source -/
  | reset (video : Video) (key : Keys) (seed : Nat)
  /-- load an image -/
  | romLoad (rom : List Byte)
  /-- write the keypad array, between cycles -/
  | keys (key : Keys)
  /-- ask for one cycle -/
  | cycle
  deriving DecidableEq, Repr

/-- The engine after an accepted answer of a load or a cycle; a refused one is no move. -/
def Engine.after : Result → Option Engine
  | .next s => some (.running s)
  | .fault f => some (.faulted f)
  | .refused _ => none

/-- The engine after one event; `none` is an event the host must not send (R194: it has no move). -/
def Engine.accept : Engine → Event → Option Engine
  | .absent, .reset video key seed => some (.constructed (State.launch video key seed))
  | .absent, .romLoad _ => none
  | .absent, .keys _ => none
  | .absent, .cycle => none
  | .constructed _, .reset _ _ _ => none
  | .constructed s, .romLoad rom => Engine.after (s.loadRom rom)
  | .constructed s, .keys key => some (.constructed (s.setKeys key))
  | .constructed _, .cycle => none
  | .running _, .reset _ _ _ => none
  | .running _, .romLoad _ => none
  | .running s, .keys key => some (.running (s.setKeys key))
  | .running s, .cycle => Engine.after (step s)
  | .faulted _, .reset _ _ _ => none
  | .faulted _, .romLoad _ => none
  | .faulted f, .keys _ => some (.faulted f)
  | .faulted f, .cycle => some (.faulted f)

/-- The engine after events in order. -/
def Engine.play : Engine → List Event → Option Engine
  | e, [] => some e
  | e, ev :: evs =>
    match e.accept ev with
    | none => none
    | some e' => e'.play evs

/-- The video output, valid between cycles (R169, R193). -/
def Engine.video : Engine → Option Video
  | .absent => none
  | .constructed s => some s.video
  | .running s => some s.video
  | .faulted _ => none

end Sys2Proof.Machine
end

