-- ==== Sys2Proof/Safety.lean ====
section
/-! DEFINITION. The terms claims use: the invariant, the parts of the state and what a step leaves unchanged, the sprite
in numbers, safe runs, and the end of a run (spec 70_reset_and_hazards.md R189, R192). -/

namespace Sys2Proof.Machine

/-- The invariant every step keeps: memory is in its canonical form, within the address space (R50). -/
abbrev State.Inv (s : State) : Prop := s.mem.wf = true

/-- The parts of the state. -/
inductive Part where
  | registers | memory | index | counter | returnStack | depth | delayTimer | soundTimer | word | screen | keypad
  | source | drawn
  deriving DecidableEq, Repr

/-- Part `p` reads the same in both states; memory byte by byte. -/
def Part.same (s t : State) : Part → Prop
  | .registers => ∀ r, t.getV r = s.getV r
  | .memory => ∀ a, t.memRead a = s.memRead a
  | .index => t.i = s.i
  | .counter => t.pc = s.pc
  | .returnStack => t.stack = s.stack
  | .depth => t.sp = s.sp
  | .delayTimer => t.dt = s.dt
  | .soundTimer => t.st = s.st
  | .word => t.opcode = s.opcode
  | .screen => t.video = s.video
  | .keypad => t.key = s.key
  | .source => t.seed = s.seed
  | .drawn => t.draws = s.draws

/-- Every part but the listed ones is unchanged from `s` to `t`. -/
def KeepsBut (parts : List Part) (s t : State) : Prop := ∀ p, p ∉ parts → Part.same s t p

/-- Every register but the listed ones is unchanged. -/
def RegsKeptBut (regs : List Reg) (s t : State) : Prop := ∀ r, r ∉ regs → t.getV r = s.getV r

/-- Every byte outside the `count` bytes from `lo` up reads as before. -/
def MemoryKeptOutside (lo count : Nat) (s t : State) : Prop :=
  ∀ a, a < lo ∨ lo + count ≤ a → t.memRead a = s.memRead a

/-- An answer with its next state passed through `f`. -/
def mapNext (f : State → State) : Result → Result
  | .next s => .next (f s)
  | .fault g => .fault g
  | .refused r => .refused r

/-- The bit of the sprite at `I`, row `r` and column `c` (R136). -/
def State.spriteBit (s : State) (r c : Nat) : Bool := (s.mem.lookup (s.i.toNat + r)).getLsbD (7 - c)

/-- The cell index of a sprite pixel under the spec's reading, for an origin given by two register values (R138, R139). -/
def spriteIndex (vx vy : Byte) (r c : Nat) : Nat :=
  (vy.toNat % Config.videoHeight + r) % Config.videoHeight * Config.videoWidth + vx.toNat % Config.videoWidth + c

/-- Some set pixel of the `n`-row sprite at `I` lies over cell `k` (R136, R138). -/
def State.spriteCovers (s : State) (vx vy : Byte) (n k : Nat) : Prop :=
  ∃ r c, r < n ∧ c < 8 ∧ s.spriteBit r c = true ∧ spriteIndex vx vy r c = k

/-- Some set pixel of the `n`-row sprite at `I` lies over a cell that is in the given state (R140, R141). -/
def State.spriteMeets (s : State) (vx vy : Byte) (n : Nat) (on : Bool) : Prop :=
  ∃ r c, r < n ∧ c < 8 ∧ s.spriteBit r c = true ∧ s.video.getLsbD (spriteIndex vx vy r c) = on

/-- The answer after `k` cycles with no host move between them, up to the first stop (R192 (a)). -/
def cycles : Nat → State → Result
  | 0, s => .next s
  | k + 1, s =>
    match step s with
    | .next t => cycles k t
    | .fault f => .fault f
    | .refused r => .refused r

/-- The step from this state gives a next state. -/
def State.safe (s : State) : Prop := ∃ t, step s = .next t

/-- The state is a jump to its own address: a run may be treated as finished (R192 (b)). -/
def State.atSelfJump (s : State) : Prop := ∃ nnn : BitVec 12, s.fetch = .ok (encode (.jp nnn)) ∧ s.pc = addressOf nnn

/-- The next `k` cycles fetch no instruction for which `p` holds. -/
def State.avoids (p : Instr → Bool) : Nat → State → Prop
  | 0, _ => True
  | k + 1, s => (∀ w, s.fetch = .ok w → p (decode w) = false) ∧ ∀ t, step s = .next t → t.avoids p k

/-- `LD DT, Vx`. -/
def Instr.writesDT : Instr → Bool
  | .ldToDT _ => true
  | _ => false

/-- `LD ST, Vx`. -/
def Instr.writesST : Instr → Bool
  | .ldToST _ => true
  | _ => false

end Sys2Proof.Machine
end

