-- ==== Sys2Proof/Certificates/Slice0/Obligations.lean ====
section
/-! DEFINITION. The statements for the provers, from the numbered rules of spec/. A statement marked DERIVED rests on a
decision, a derivation or general knowledge that the spec marks as its own, or on a choice of the model's log. -/

open Sys2Proof Sys2Proof.Machine

/-! ### Encoding -/

/-- DERIVED (30_encoding.md sections 2, 4 and 5; R83 in the spec's own derivation; log 28): decoding the word of any well-formed
instruction gives it back, every operand at every value. The word is the canonical one; the no-op has none (R96), and that
it carries and encodes to the word it was read from is the model's choice (log 28). -/
def Obligations.DecodeOfEncodeIsIdentity : Prop :=
  ∀ i : Instr, i.wellFormed = true → decode (encode i) = i

/-- DERIVED (30_encoding.md, unmapped encodings): the decoder gives a well-formed instruction for every word, and the no-op
for exactly the unmapped words. The no-op's word is the model's (log 28). -/
def Obligations.EveryWordDecodes : Prop :=
  ∀ w : Word, (decode w).wellFormed = true ∧ (unmapped w = true ↔ decode w = .nop w)

/-- DERIVED (30_encoding.md, the complete opcode map; the patterns are general knowledge, log 9): the word satisfies the
match and mask of the row the dispatch takes, and any row a word satisfies is the row it takes, so rows exclude each other. -/
def Obligations.DispatchFollowsMatchAndMask : Prop :=
  ∀ w : Word, (decode w).selectedBy w ∧
    ∀ i : Instr, (∀ u, i ≠ .nop u) → i.selectedBy w → (decode w).matchMask = i.matchMask

/-- R9: the operands of the decoded instruction are the bit fields of the word, unsigned, and are zero-extended. -/
def Obligations.OperandsAreBitFields : Prop :=
  (∀ w : Word,
    (∀ x, (decode w).operandX = some x → x.val = w.toNat / 256 % 16) ∧
    (∀ y, (decode w).operandY = some y → y.val = w.toNat / 16 % 16) ∧
    (∀ kk, (decode w).operandKK = some kk → kk.toNat = w.toNat % 256) ∧
    (∀ n, (decode w).operandN = some n → n.toNat = w.toNat % 16) ∧
    (∀ nnn, (decode w).operandNNN = some nnn → nnn.toNat = w.toNat % 4096)) ∧
  (∀ nnn : BitVec 12, (addressOf nnn).toNat = nnn.toNat) ∧ (∀ b : Byte, (wordOf b).toNat = b.toNat)

/-- DERIVED (30_encoding.md, alias encodings; decision D1, log 8): the alias words are the listed ones, and the two readings
of the source differ on exactly them. -/
def Obligations.AliasWordsAreTheListedOnes : Prop :=
  ∀ w : Word,
    (aliasWord w = true ↔
      (w.toNat / 4096 = 0 ∧ (w.toNat % 16 = 0x0 ∨ w.toNat % 16 = 0xE) ∧ w.toNat / 16 % 256 ≠ 0x0E) ∨
      ((w.toNat / 4096 = 0x5 ∨ w.toNat / 4096 = 0x9) ∧ w.toNat % 16 ≠ 0) ∨
      (w.toNat / 4096 = 0xE ∧
        ((w.toNat % 16 = 0xE ∧ w.toNat / 16 % 16 ≠ 0x9) ∨ (w.toNat % 16 = 0x1 ∧ w.toNat / 16 % 16 ≠ 0xA)))) ∧
    (decodeIn .tableKeyed w ≠ decodeIn .exact w ↔ aliasWord w = true)

/-- DERIVED (30_encoding.md section 1, R70; 95_test_vectors.md S1, S3, V-ENC and V-DRW; log 32): words written out from the spec,
high byte first, decode to the instructions they stand for. That a single byte is the error `truncated` is the model's
choice (log 32). -/
def Obligations.SpecWordsDecode : Prop :=
  decodeBytes [0x00, 0xE0] = .ok (.cls, []) ∧ decodeBytes [0x60, 0x05] = .ok (.ldImm 0 5, []) ∧
  decodeBytes [0x70, 0x03] = .ok (.addImm 0 3, []) ∧ decodeBytes [0x12, 0x00] = .ok (.jp 0x200, []) ∧
  decodeBytes [0x81, 0x24] = .ok (.addReg 1 2, []) ∧ decodeBytes [0xD1, 0x25] = .ok (.drw 1 2 5, []) ∧
  decodeBytes [0xE1, 0x9E] = .ok (.skp 1, []) ∧ decodeBytes [0xF1, 0x65] = .ok (.loadRegs 1, []) ∧
  decodeBytes [0xF1, 0xE5] = .ok (.nop 0xF1E5, []) ∧ decodeBytes [0xF4] = .error (.truncated 1)

/-! ### The cycle -/

/-- R90: where the two bytes at `pc` decode to an instruction, the cycle latches the word, moves `pc` on by 2, executes that
one instruction, then steps both timers; a fault of the instruction is the fault of the cycle (none is refused). -/
def Obligations.CycleRunsDecodedInstruction : Prop :=
  ∀ (s : State) (hi lo : Byte) (i : Instr),
    s.memRead s.pc.toNat = .ok hi → s.memRead (s.pc.toNat + 1) = .ok lo → decodeBytes [hi, lo] = .ok (i, []) →
    ∃ u : State, u = s.advance (hi ++ lo) ∧ u.pc.toNat = (s.pc.toNat + 2) % 65536 ∧
      u.opcode.toNat = hi.toNat * 256 + lo.toNat ∧ KeepsBut [.counter, .word] s u ∧ u.mem = s.mem ∧
      (∀ t, exec i u = .next t → ∃ v, step s = .next v ∧ v.dt.toNat = t.dt.toNat - 1 ∧ v.st.toNat = t.st.toNat - 1 ∧
        KeepsBut [.delayTimer, .soundTimer] t v ∧ v.mem = t.mem) ∧
      (∀ f, exec i u = .fault f → step s = .fault f)

/-- DERIVED (40_cycle_and_dispatch.md, fetch; decision D8, log 2): a fetch needs both bytes below 0x1000; otherwise the
cycle faults with the first address that does not exist. -/
def Obligations.FetchFaultsPastMemory : Prop :=
  ∀ s : State,
    (s.pc.toNat ≤ 0xFFE → ∃ hi lo, s.memRead s.pc.toNat = .ok hi ∧ s.memRead (s.pc.toNat + 1) = .ok lo ∧
      s.fetch = .ok (hi ++ lo)) ∧
    (s.pc.toNat = 0xFFF → step s = .fault (.memOutOfRange 0x1000)) ∧
    (0x1000 ≤ s.pc.toNat → step s = .fault (.memOutOfRange s.pc.toNat))

/-- DERIVED (40_cycle_and_dispatch.md, timers; the spec's derivation from the cycle's order, log 27): at the end of every
cycle a timer is one less than the value it had, or than the value the cycle's own instruction wrote, floored at zero. -/
def Obligations.TimersStepInEveryCycle : Prop :=
  ∀ (s t : State) (w : Word), s.fetch = .ok w → step s = .next t →
    (∀ x, decode w = .ldToDT x → t.dt.toNat = (s.getV x).toNat - 1) ∧
    ((∀ x, decode w ≠ .ldToDT x) → t.dt.toNat = s.dt.toNat - 1) ∧
    (∀ x, decode w = .ldToST x → t.st.toNat = (s.getV x).toNat - 1) ∧
    ((∀ x, decode w ≠ .ldToST x) → t.st.toNat = s.st.toNat - 1)

/-- DERIVED (60_exceptions.md, timers and counters; the tick in every cycle is the spec's derivation, log 27): over any number of
cycles that do not write a timer, it counts them down and stops at zero. -/
def Obligations.TimersCountCycles : Prop :=
  ∀ (k : Nat) (s t : State), cycles k s = .next t →
    (s.avoids Instr.writesDT k → t.dt.toNat = s.dt.toNat - k) ∧
    (s.avoids Instr.writesST k → t.st.toNat = s.st.toNat - k)

/-- DERIVED (70_reset_and_hazards.md, end of a run; decision D26; the tick is log 27): from a jump to its own address, every
number of cycles leaves everything unchanged but the timers, which run down, and the transient word. -/
def Obligations.SelfJumpChangesOnlyTimers : Prop :=
  ∀ (k : Nat) (s : State), s.atSelfJump →
    ∃ t, cycles k s = .next t ∧ t.atSelfJump ∧ t.mem = s.mem ∧
      KeepsBut [.word, .delayTimer, .soundTimer] s t ∧
      t.dt.toNat = s.dt.toNat - k ∧ t.st.toNat = s.st.toNat - k

/-! ### Reset, memory and the invariant -/

/-- DERIVED (10_state.md, reset values; `I`, `sp` and `opcode` are the spec's decision D14, log 14; the glyph bytes are log
7): what reset leaves, for every launch content of the video buffer and the keypad and every seed. -/
def Obligations.ResetLeavesTheListedValues : Prop :=
  ∀ (video : Video) (key : Keys) (seed : Nat), ∃ s, s = State.launch video key seed ∧
    (∀ a, a < 0x1000 → s.memRead a =
      .ok (if 0x050 ≤ a ∧ a < 0x0A0 then Config.fontset.getD (a - 0x050) 0 else 0)) ∧
    Config.fontset.length = 80 ∧ (∀ r, s.getV r = 0) ∧ s.pc.toNat = 0x200 ∧
    (∀ k : Fin 16, s.stack[k.val] = 0) ∧ s.dt = 0 ∧ s.st = 0 ∧ s.i = 0 ∧ s.sp = 0 ∧ s.opcode = 0 ∧
    s.video = video ∧ s.key = key ∧ s.seed = seed

/-- DERIVED (20_memory.md, address spaces; the canonical form is the model's, log 15): every launch state meets the
invariant, State.reset among them. -/
def Obligations.ResetMeetsInvariant : Prop :=
  State.reset.Inv ∧ ∀ (video : Video) (key : Keys) (seed : Nat), (State.launch video key seed).Inv

/-- DERIVED (20_memory.md, address spaces; the canonical form is the model's, log 15): every cycle from every state that
meets the invariant gives a state that meets it. -/
def Obligations.StepKeepsInvariant : Prop :=
  ∀ s t : State, s.Inv → step s = .next t → t.Inv

/-- DERIVED (20_memory.md, ordering; the canonical form is the model's choice, log 15): a byte stored is what its address reads
as, every other address reads as before, nothing but memory changes, and the model's canonical form of memory is kept. -/
def Obligations.StoreReadsBack : Prop :=
  ∀ (s t : State) (a : Nat) (b : Byte), s.Inv → s.memWrite a b = .ok t →
    t.Inv ∧ t.memRead a = .ok b ∧ (∀ c, c ≠ a → t.memRead c = s.memRead c) ∧ KeepsBut [.memory] s t

/-- DERIVED (20_memory.md, bounds; decision D8, log 2): an access at or below 0xFFF succeeds, any other faults with its
address, and no address is wrapped or masked. -/
def Obligations.AccessesPastMemoryFault : Prop :=
  ∀ (s : State) (a : Nat) (b : Byte),
    (a ≤ 0xFFF → (∃ c, s.memRead a = .ok c) ∧ ∃ t, s.memWrite a b = .ok t) ∧
    (0xFFF < a → s.memRead a = .error (.memOutOfRange a) ∧ s.memWrite a b = .error (.memOutOfRange a))

/-- DERIVED (20_memory.md, address spaces; the canonical form is the model's, log 15): memories in canonical form that read
the same at every address are equal. -/
def Obligations.EqualReadsGiveEqualMemory : Prop :=
  ∀ m m' : Memory, m.wf = true → m'.wf = true → (∀ a, a < 0x1000 → m.lookup a = m'.lookup a) → m = m'

/-- DERIVED (20_memory.md, ordering, fetch coherence; decision D17, log 24; the premise on the form
of memory is the model's, log 15): two bytes stored at `pc` and `pc + 1` are the
word the next cycle executes. -/
def Obligations.StoredCodeIsExecuted : Prop :=
  ∀ (s t u : State) (hi lo : Byte), s.Inv → s.memWrite s.pc.toNat hi = .ok t →
    t.memWrite (s.pc.toNat + 1) lo = .ok u →
    step u = thenTick (exec (decode (hi ++ lo)) (u.advance (hi ++ lo)))

/-! ### Control flow -/

/-- R100: encoding, effect and faults of `JP nnn`; a jump to its own address changes nothing but the timers (and the
transient word). -/
def Obligations.JumpGoesToItsAddress : Prop :=
  (∀ w : Word, w &&& 0xF000 = 0x1000 → ∃ nnn, decode w = .jp nnn ∧ nnn.toNat = w.toNat % 4096) ∧
  (∀ nnn : BitVec 12, encode (.jp nnn) &&& 0xF000 = 0x1000 ∧ (encode (.jp nnn)).toNat = 0x1000 + nnn.toNat) ∧
  (∀ (nnn : BitVec 12) (s : State), ∃ t, exec (.jp nnn) s = .next t ∧ t.pc.toNat = nnn.toNat ∧
    t.mem = s.mem ∧ KeepsBut [.counter] s t ∧ (nnn = 0xFFF → step t = .fault (.memOutOfRange 0x1000))) ∧
  (∀ s : State, s.atSelfJump → ∃ t, step s = .next t ∧ t.atSelfJump ∧ t.mem = s.mem ∧
    KeepsBut [.word, .delayTimer, .soundTimer] s t)

/-- DERIVED (41_control_flow.md, JP V0; the pattern is general knowledge): the target is `nnn + V[0]`, without wrap. -/
def Obligations.OffsetJumpAddsV0 : Prop :=
  ∀ (nnn : BitVec 12) (s : State), ∃ t, exec (.jpV0 nnn) s = .next t ∧
    t.pc.toNat = nnn.toNat + (s.getV 0).toNat ∧ t.pc.toNat ≤ 0x10FE ∧ KeepsBut [.counter] s t

/-- DERIVED (41_control_flow.md, CALL; decisions D9 and D33, log 3): a call with room pushes `pc` and jumps; a call on a
full stack faults. -/
def Obligations.CallPushesReturnAddress : Prop :=
  ∀ (nnn : BitVec 12) (s : State),
    (s.sp.val < 16 → ∃ t, exec (.call nnn) s = .next t ∧ t.pc.toNat = nnn.toNat ∧ t.sp.val = s.sp.val + 1 ∧
      (∀ k : Fin 16, t.stack[k.val] = if k.val = s.sp.val then s.pc else s.stack[k.val]) ∧
      KeepsBut [.counter, .returnStack, .depth] s t) ∧
    (s.sp.val = 16 → exec (.call nnn) s = .fault (.stackOverflow s.pc))

/-- DERIVED (41_control_flow.md, RET; decision D9, log 3): a return pops the last live entry into `pc` and keeps the array;
a return on an empty stack faults. -/
def Obligations.ReturnPopsLastEntry : Prop :=
  ∀ s : State,
    (∀ k : Fin 16, s.sp.val = k.val + 1 → ∃ t, exec .ret s = .next t ∧ t.pc = s.stack[k.val] ∧ t.sp.val = k.val ∧
      KeepsBut [.counter, .depth] s t) ∧
    (s.sp.val = 0 → exec .ret s = .fault (.stackUnderflow s.pc))

/-- DERIVED (41_control_flow.md, RET; decision D33): a return from a state with the stack a call left goes to the address
after the call and restores the stack pointer. -/
def Obligations.ReturnUndoesCall : Prop :=
  ∀ (nnn : BitVec 12) (s t u : State), exec (.call nnn) s = .next t → u.stack = t.stack → u.sp = t.sp →
    ∃ v, exec .ret u = .next v ∧ v.pc = s.pc ∧ v.sp = s.sp

/-- DERIVED (41_control_flow.md, SE and SNE; the patterns are general knowledge): each register skip moves `pc` on by 2
exactly when its condition holds, and changes nothing else. -/
def Obligations.RegisterSkipsTestTheirOperands : Prop :=
  ∀ (x y : Reg) (kk : Byte) (s : State),
    (∃ t, exec (.seImm x kk) s = .next t ∧ KeepsBut [.counter] s t ∧
      t.pc.toNat = if s.getV x = kk then (s.pc.toNat + 2) % 65536 else s.pc.toNat) ∧
    (∃ t, exec (.sneImm x kk) s = .next t ∧ KeepsBut [.counter] s t ∧
      t.pc.toNat = if s.getV x = kk then s.pc.toNat else (s.pc.toNat + 2) % 65536) ∧
    (∃ t, exec (.seReg x y) s = .next t ∧ KeepsBut [.counter] s t ∧
      t.pc.toNat = if s.getV x = s.getV y then (s.pc.toNat + 2) % 65536 else s.pc.toNat) ∧
    (∃ t, exec (.sneReg x y) s = .next t ∧ KeepsBut [.counter] s t ∧
      t.pc.toNat = if s.getV x = s.getV y then s.pc.toNat else (s.pc.toNat + 2) % 65536)

/-- DERIVED (10_state.md, program counter; decision D27, log 23): how each instruction changes `pc`; every other one leaves
it alone. -/
def Obligations.ProgramCounterChangesOnlyAsListed : Prop :=
  ∀ (i : Instr) (s t : State), exec i s = .next t →
    match i with
    | .jp nnn | .call nnn => t.pc.toNat = nnn.toNat
    | .jpV0 nnn => t.pc.toNat = nnn.toNat + (s.getV 0).toNat
    | .ret => ∃ k : Fin 16, s.sp.val = k.val + 1 ∧ t.pc = s.stack[k.val]
    | .seImm _ _ | .sneImm _ _ | .seReg _ _ | .sneReg _ _ | .skp _ | .sknp _ => t.pc = s.pc ∨ t.pc = s.pc + 2
    | .ldKey _ => if ∀ k : Reg, s.key[k.val] = false then t.pc = s.pc - 2 else t.pc = s.pc
    | _ => t.pc = s.pc

/-- R96: an unmapped word is a no-op, its meaning changes nothing, and its cycle moves `pc` on by 2 and steps the timers. -/
def Obligations.UnmappedWordsDoNothing : Prop :=
  (∀ w : Word, unmapped w = true → decode w = .nop w) ∧
  (∀ (w : Word) (s : State), ∃ t, exec (.nop w) s = .next t ∧ t.mem = s.mem ∧ KeepsBut [] s t) ∧
  (∀ (w : Word) (s : State), unmapped w = true → s.fetch = .ok w →
    ∃ t, step s = .next t ∧ t.pc.toNat = (s.pc.toNat + 2) % 65536 ∧ t.dt.toNat = s.dt.toNat - 1 ∧
      t.st.toNat = s.st.toNat - 1 ∧ t.mem = s.mem ∧ KeepsBut [.counter, .word, .delayTimer, .soundTimer] s t)

/-! ### Data movement -/

/-- R110: encoding, effect, flags and faults of `LD Vx, kk`. -/
def Obligations.LoadImmediateSetsRegister : Prop :=
  (∀ w : Word, w &&& 0xF000 = 0x6000 →
    ∃ x kk, decode w = .ldImm x kk ∧ x.val = w.toNat / 256 % 16 ∧ kk.toNat = w.toNat % 256) ∧
  (∀ (x : Reg) (kk : Byte), (encode (.ldImm x kk)).toNat = 0x6000 + x.val * 256 + kk.toNat) ∧
  (∀ (x : Reg) (kk : Byte) (s : State), ∃ t, exec (.ldImm x kk) s = .next t ∧ t.getV x = kk ∧
    RegsKeptBut [x] s t ∧ t.mem = s.mem ∧ KeepsBut [.registers] s t)

/-- DERIVED (42_data_movement.md, LD Vx, Vy; LD I; LD F; decision D7 for digits above 15, log 21): a copy, an address and a
glyph address land in their destination and nothing else changes. -/
def Obligations.CopiesAndAddressesLand : Prop :=
  (∀ (x y : Reg) (s : State), ∃ t, exec (.ldReg x y) s = .next t ∧ t.getV x = s.getV y ∧
    RegsKeptBut [x] s t ∧ KeepsBut [.registers] s t) ∧
  (∀ (nnn : BitVec 12) (s : State), ∃ t, exec (.ldI nnn) s = .next t ∧ t.i.toNat = nnn.toNat ∧ KeepsBut [.index] s t) ∧
  (∀ (x : Reg) (s : State), ∃ t, exec (.ldFont x) s = .next t ∧ t.i.toNat = 0x050 + 5 * (s.getV x).toNat ∧
    KeepsBut [.index] s t)

/-- DERIVED (42_data_movement.md, LD Vx, DT; LD DT, Vx; LD ST, Vx; the patterns are general knowledge): the three timer
moves, before the cycle's own timer step. -/
def Obligations.TimerMovesCopyTheirOperand : Prop :=
  ∀ (x : Reg) (s : State),
    (∃ t, exec (.ldFromDT x) s = .next t ∧ t.getV x = s.dt ∧ RegsKeptBut [x] s t ∧ KeepsBut [.registers] s t) ∧
    (∃ t, exec (.ldToDT x) s = .next t ∧ t.dt = s.getV x ∧ KeepsBut [.delayTimer] s t) ∧
    (∃ t, exec (.ldToST x) s = .next t ∧ t.st = s.getV x ∧ KeepsBut [.soundTimer] s t)

/-- DERIVED (42_data_movement.md, LD [I], Vx; decisions D5, D8 and D34, logs 2 and 20; the premise on the
form of memory is the model's, log 15): the registers V0 to Vx go to `I` up,
every other byte is unchanged, `I` stays; a last address above 0xFFF faults. -/
def Obligations.BlockStoreWritesRegisters : Prop :=
  ∀ (x : Reg) (s : State),
    (s.Inv → s.i.toNat + x.val ≤ 0xFFF → ∃ t, exec (.storeRegs x) s = .next t ∧
      (∀ k : Reg, k ≤ x → t.memRead (effective s.i k.val) = .ok (s.getV k)) ∧
      MemoryKeptOutside (effective s.i 0) (x.val + 1) s t ∧ KeepsBut [.memory] s t) ∧
    (0xFFF < s.i.toNat + x.val → exec (.storeRegs x) s = .fault (.memOutOfRange (s.i.toNat + x.val)))

/-- DERIVED (42_data_movement.md, LD Vx, [I]; decisions D5, D8 and D34, logs 2 and 20): the registers V0 to Vx hold the
bytes from `I` up, those above x and memory are unchanged, `I` stays; a last address above 0xFFF faults. -/
def Obligations.BlockLoadReadsRegisters : Prop :=
  ∀ (x : Reg) (s : State),
    (s.i.toNat + x.val ≤ 0xFFF → ∃ t, exec (.loadRegs x) s = .next t ∧
      (∀ k : Reg, k ≤ x → s.memRead (effective s.i k.val) = .ok (t.getV k)) ∧
      (∀ k : Reg, x < k → t.getV k = s.getV k) ∧ KeepsBut [.registers] s t) ∧
    (0xFFF < s.i.toNat + x.val → exec (.loadRegs x) s = .fault (.memOutOfRange (s.i.toNat + x.val)))

/-! ### Arithmetic and logic -/

/-- R121: encoding, effect, flags and faults of `ADD Vx, kk`. -/
def Obligations.AddImmediateWraps : Prop :=
  (∀ w : Word, w &&& 0xF000 = 0x7000 →
    ∃ x kk, decode w = .addImm x kk ∧ x.val = w.toNat / 256 % 16 ∧ kk.toNat = w.toNat % 256) ∧
  (∀ (x : Reg) (kk : Byte), (encode (.addImm x kk)).toNat = 0x7000 + x.val * 256 + kk.toNat) ∧
  (∀ (x : Reg) (kk : Byte) (s : State), ∃ t, exec (.addImm x kk) s = .next t ∧
    (t.getV x).toNat = ((s.getV x).toNat + kk.toNat) % 256 ∧
    RegsKeptBut [x] s t ∧ t.mem = s.mem ∧ KeepsBut [.registers] s t)

/-- DERIVED (43_arithmetic_logic.md, OR, AND, XOR; decision D4, log 19): each works on all 8 bits independently and leaves
every other register, `VF` among them, unchanged. -/
def Obligations.BitLogicWorksBitByBit : Prop :=
  ∀ (x y : Reg) (s : State),
    (∃ t, exec (.orReg x y) s = .next t ∧
      (∀ k, k < 8 → (t.getV x).getLsbD k = ((s.getV x).getLsbD k || (s.getV y).getLsbD k)) ∧
      RegsKeptBut [x] s t ∧ KeepsBut [.registers] s t) ∧
    (∃ t, exec (.andReg x y) s = .next t ∧
      (∀ k, k < 8 → (t.getV x).getLsbD k = ((s.getV x).getLsbD k && (s.getV y).getLsbD k)) ∧
      RegsKeptBut [x] s t ∧ KeepsBut [.registers] s t) ∧
    (∃ t, exec (.xorReg x y) s = .next t ∧
      (∀ k, k < 8 → (t.getV x).getLsbD k = ((s.getV x).getLsbD k ^^ (s.getV y).getLsbD k)) ∧
      RegsKeptBut [x] s t ∧ KeepsBut [.registers] s t)

/-- DERIVED (43_arithmetic_logic.md, ADD Vx, Vy and VF as destination; decision D2, log 16): the low byte of the sum into
`V[x]`, then the carry into `VF`, which is what stays for x = 15. -/
def Obligations.AddSetsCarry : Prop :=
  ∀ (x y : Reg) (s : State), ∃ t, exec (.addReg x y) s = .next t ∧
    (x ≠ 15 → (t.getV x).toNat = ((s.getV x).toNat + (s.getV y).toNat) % 256) ∧
    (t.getV 15).toNat = (if 255 < (s.getV x).toNat + (s.getV y).toNat then 1 else 0) ∧
    RegsKeptBut [x, 15] s t ∧ KeepsBut [.registers] s t

/-- DERIVED (43_arithmetic_logic.md, SUB, SUBN and VF as destination; decision D2, log 16; conflict C3): the difference
modulo 256 into `V[x]`, then 1 into `VF` exactly when the minuend is strictly greater. -/
def Obligations.SubtractionsSetStrictFlag : Prop :=
  ∀ (x y : Reg) (s : State),
    (∃ t, exec (.sub x y) s = .next t ∧
      (x ≠ 15 → (t.getV x).toNat = ((s.getV x).toNat + 256 - (s.getV y).toNat) % 256) ∧
      (t.getV 15).toNat = (if (s.getV y).toNat < (s.getV x).toNat then 1 else 0) ∧
      RegsKeptBut [x, 15] s t ∧ KeepsBut [.registers] s t) ∧
    (∃ t, exec (.subn x y) s = .next t ∧
      (x ≠ 15 → (t.getV x).toNat = ((s.getV y).toNat + 256 - (s.getV x).toNat) % 256) ∧
      (t.getV 15).toNat = (if (s.getV x).toNat < (s.getV y).toNat then 1 else 0) ∧
      RegsKeptBut [x, 15] s t ∧ KeepsBut [.registers] s t)

/-- DERIVED (43_arithmetic_logic.md, SHR, SHL and VF as destination; decisions D2 and D3, logs 16 and 18): `V[x]` is shifted
by one in place, `V[y]` plays no part, and `VF` gets the bit shifted out of the value before the shift. -/
def Obligations.ShiftsSetBitShiftedOut : Prop :=
  ∀ (x y : Reg) (s : State),
    (∃ t, exec (.shr x y) s = .next t ∧ (x ≠ 15 → (t.getV x).toNat = (s.getV x).toNat / 2) ∧
      (t.getV 15).toNat = (s.getV x).toNat % 2 ∧ RegsKeptBut [x, 15] s t ∧ KeepsBut [.registers] s t) ∧
    (∃ t, exec (.shl x y) s = .next t ∧ (x ≠ 15 → (t.getV x).toNat = (s.getV x).toNat * 2 % 256) ∧
      (t.getV 15).toNat = (s.getV x).toNat / 128 ∧ RegsKeptBut [x, 15] s t ∧ KeepsBut [.registers] s t)

/-- DERIVED (43_arithmetic_logic.md, ADD I; decision D6, log 17): `I` wraps at 16 bits, and `VF` is not written. -/
def Obligations.AddIndexWrapsAtSixteenBits : Prop :=
  ∀ (x : Reg) (s : State), ∃ t, exec (.addI x) s = .next t ∧
    t.i.toNat = (s.i.toNat + (s.getV x).toNat) % 65536 ∧ KeepsBut [.index] s t

/-- DERIVED (10_state.md, flag; decision D4, log 19): an instruction that is none of the six flag producers leaves `VF`
unchanged unless its own x field is 15, and after the six `VF` is 0 or 1. -/
def Obligations.OnlySixInstructionsSetFlag : Prop :=
  ∀ (i : Instr) (s t : State), exec i s = .next t →
    match i with
    | .addReg _ _ | .sub _ _ | .shr _ _ | .subn _ _ | .shl _ _ | .drw _ _ _ => t.getV 15 = 0 ∨ t.getV 15 = 1
    | _ => i.operandX ≠ some 15 → t.getV 15 = s.getV 15

/-! ### Decimal digits and random bytes -/

/-- DERIVED (44_bcd_random.md, LD B; decisions D8 and D34, log 2; the premise on the form of memory is the
model's, log 15): the three digits go to `I`, `I+1`, `I+2`, every other
byte is unchanged; a last address above 0xFFF faults. -/
def Obligations.BcdStoresThreeDigits : Prop :=
  ∀ (x : Reg) (s : State),
    (s.Inv → s.i.toNat + 2 ≤ 0xFFF → ∃ t, exec (.ldBcd x) s = .next t ∧
      t.memRead (effective s.i 0) = .ok (BitVec.ofNat 8 ((s.getV x).toNat / 100)) ∧
      t.memRead (effective s.i 1) = .ok (BitVec.ofNat 8 ((s.getV x).toNat / 10 % 10)) ∧
      t.memRead (effective s.i 2) = .ok (BitVec.ofNat 8 ((s.getV x).toNat % 10)) ∧
      MemoryKeptOutside (effective s.i 0) 3 s t ∧ KeepsBut [.memory] s t) ∧
    (0xFFF < s.i.toNat + 2 → exec (.ldBcd x) s = .fault (.memOutOfRange (s.i.toNat + 2)))

/-- DERIVED (44_bcd_random.md, RND; decision D21, log 13): the destination is a fresh free byte AND the immediate; the bits
clear in the immediate are clear; the draw is used up, so the next one is another free byte. -/
def Obligations.RandomIsMaskedFreeByte : Prop :=
  ∀ (x : Reg) (kk : Byte) (s : State), ∃ t, exec (.rnd x kk) s = .next t ∧
    t.getV x = Config.freeByte s.seed s.draws &&& kk ∧
    (∀ k, k < 8 → kk.getLsbD k = false → (t.getV x).getLsbD k = false) ∧ t.draws = s.draws + 1 ∧
    RegsKeptBut [x] s t ∧ KeepsBut [.registers, .drawn] s t

/-! ### Display -/

/-- DERIVED (45_display.md, CLS; the words 0ab0 by decision D1, log 8; the size is log 6): every cell goes off and nothing
else changes. -/
def Obligations.ClearTurnsEveryCellOff : Prop :=
  (∀ w : Word, w &&& 0xF00F = 0x0000 → decode w = .cls) ∧
  (∀ s : State, ∃ t, exec .cls s = .next t ∧ (∀ k, k < Config.videoCells → t.video.getLsbD k = false) ∧
    t.mem = s.mem ∧ KeepsBut [.screen] s t)

/-- DERIVED (45_display.md, DRW, screen edges, collision; decisions D12, D13 and D34, logs 5, 6 and 22): a draw whose rows
lie in memory and whose set pixels lie in the buffer turns over exactly the cells under a set pixel, writes the collision
into `VF`, always, and changes nothing else. -/
def Obligations.DrawTurnsOverSpritePixels : Prop :=
  ∀ (x y : Reg) (n : BitVec 4) (s : State),
    (n.toNat = 0 ∨ s.i.toNat + (n.toNat - 1) ≤ 0xFFF) →
    (∀ r c, r < n.toNat → c < 8 → s.spriteBit r c = true →
      spriteIndex (s.getV x) (s.getV y) r c < Config.videoCells) →
    ∃ t, exec (.drw x y n) s = .next t ∧
      (∀ k, k < Config.videoCells →
        (s.spriteCovers (s.getV x) (s.getV y) n.toNat k → t.video.getLsbD k = !s.video.getLsbD k) ∧
        (¬ s.spriteCovers (s.getV x) (s.getV y) n.toNat k → t.video.getLsbD k = s.video.getLsbD k)) ∧
      (s.spriteMeets (s.getV x) (s.getV y) n.toNat true → t.getV 15 = 1) ∧
      (¬ s.spriteMeets (s.getV x) (s.getV y) n.toNat true → t.getV 15 = 0) ∧
      RegsKeptBut [15] s t ∧ KeepsBut [.registers, .screen] s t

/-- DERIVED (45_display.md, DRW and screen edges; decisions D8, D12 and D34, logs 2 and 5): a sprite whose last row is above
0xFFF faults with that address; otherwise the first set pixel past the buffer, in drawing order, faults with its index,
2048 to 2054. -/
def Obligations.DrawFaultsWhereListed : Prop :=
  ∀ (x y : Reg) (n : BitVec 4) (s : State),
    (0 < n.toNat → 0xFFF < s.i.toNat + (n.toNat - 1) →
      exec (.drw x y n) s = .fault (.memOutOfRange (s.i.toNat + (n.toNat - 1)))) ∧
    ((n.toNat = 0 ∨ s.i.toNat + (n.toNat - 1) ≤ 0xFFF) →
      (∃ r c, r < n.toNat ∧ c < 8 ∧ s.spriteBit r c = true ∧
        Config.videoCells ≤ spriteIndex (s.getV x) (s.getV y) r c) →
      ∃ r c, r < n.toNat ∧ c < 8 ∧ s.spriteBit r c = true ∧
        2048 ≤ spriteIndex (s.getV x) (s.getV y) r c ∧ spriteIndex (s.getV x) (s.getV y) r c ≤ 2054 ∧
        exec (.drw x y n) s = .fault (.videoOutOfRange (spriteIndex (s.getV x) (s.getV y) r c)) ∧
        ∀ r' c', (r' < r ∨ r' = r ∧ c' < c) → c' < 8 → s.spriteBit r' c' = true →
          spriteIndex (s.getV x) (s.getV y) r' c' < 2048)

/-- DERIVED (45_display.md, exclusive-or law; conflict C5): the same draw twice restores the buffer, and the two flags are
those of the rule. -/
def Obligations.DrawingTwiceRestoresBuffer : Prop :=
  ∀ (x y : Reg) (n : BitVec 4) (s t : State), x ≠ 15 → y ≠ 15 → exec (.drw x y n) s = .next t →
    ∃ u, exec (.drw x y n) t = .next u ∧ u.video = s.video ∧
      (t.getV 15 = 1 ↔ s.spriteMeets (s.getV x) (s.getV y) n.toNat true) ∧
      (u.getV 15 = 1 ↔ s.spriteMeets (s.getV x) (s.getV y) n.toNat false)

/-- DERIVED (45_display.md, collision; the spec's derivation): for every screen at least 8 wide and 16 high, no two pixels of
a sprite of at most 15 rows share a cell. -/
def Obligations.SpritePixelsShareNoCell : Prop :=
  ∀ (w h x0 y0 r c r' c' : Nat) (k : Fin (w * h)), 8 ≤ w → 16 ≤ h → r < 15 → r' < 15 → c < 8 → c' < 8 →
    place .rowWrapLinearSpill w h x0 y0 r c = .cell k → place .rowWrapLinearSpill w h x0 y0 r' c' = .cell k →
    r = r' ∧ c = c'

/-- DERIVED (93_implementation_defined.md U6, 45_display.md screen edges): for every screen at least 8 wide and 16 high, the
four readings of the source's edge sentence draw alike when every set pixel lies within the screen, and that is every draw
with its origin at least 8 columns from the right edge and its rows above the bottom. -/
def Obligations.EdgeReadingsAgreeInside : Prop :=
  ∀ (w h : Nat) (vx vy : Byte) (rows : List Byte) (video : BitVec (w * h)), 8 ≤ w → 16 ≤ h →
    (vx.toNat % w ≤ w - 8 → vy.toNat % h + rows.length ≤ h →
      ∀ p ∈ spritePixels 0 rows, vx.toNat % w + p.2 < w ∧ vy.toNat % h + p.1 < h) ∧
    ((∀ p ∈ spritePixels 0 rows, vx.toNat % w + p.2 < w ∧ vy.toNat % h + p.1 < h) →
      ∃ cv, ∀ edge : DrawEdge, drawSprite edge w h vx vy rows video = .ok cv)

/-! ### Keypad -/

/-- DERIVED (46_input.md, SKP and SKNP; decision D10, log 4): the key skips test the key a register names and change only
`pc`; an index above 15 faults with it. -/
def Obligations.KeySkipsTestNamedKey : Prop :=
  ∀ (x : Reg) (s : State),
    (∀ k : Reg, (s.getV x).toNat = k.val →
      (∃ t, exec (.skp x) s = .next t ∧ KeepsBut [.counter] s t ∧
        t.pc.toNat = if s.key[k.val] = true then (s.pc.toNat + 2) % 65536 else s.pc.toNat) ∧
      (∃ t, exec (.sknp x) s = .next t ∧ KeepsBut [.counter] s t ∧
        t.pc.toNat = if s.key[k.val] = true then s.pc.toNat else (s.pc.toNat + 2) % 65536)) ∧
    (15 < (s.getV x).toNat → exec (.skp x) s = .fault (.keyIndexOutOfRange (s.getV x)) ∧
      exec (.sknp x) s = .fault (.keyIndexOutOfRange (s.getV x)))

/-- DERIVED (46_input.md, LD Vx, K; decision D31, log 26): the lowest held key's index into `V[x]`, or `pc` back by 2. -/
def Obligations.KeyWaitTakesLowestKey : Prop :=
  ∀ (x : Reg) (s : State),
    (∀ k : Reg, s.key[k.val] = true → (∀ j : Reg, j < k → s.key[j.val] = false) →
      ∃ t, exec (.ldKey x) s = .next t ∧ (t.getV x).toNat = k.val ∧ RegsKeptBut [x] s t ∧ KeepsBut [.registers] s t) ∧
    ((∀ k : Reg, s.key[k.val] = false) →
      ∃ t, exec (.ldKey x) s = .next t ∧ t.pc.toNat = (s.pc.toNat + 65534) % 65536 ∧ KeepsBut [.counter] s t)

/-- DERIVED (46_input.md, LD Vx, K; 70_reset_and_hazards.md; decision D31, log 26; the tick is log 27):
while no key is held, any number of
cycles at a key wait leaves everything in place but the transient word and the timers, which run down. -/
def Obligations.KeyWaitRepeatsWhileNoKey : Prop :=
  ∀ (k : Nat) (s : State) (w : Word) (x : Reg), s.fetch = .ok w → decode w = .ldKey x →
    (∀ j : Reg, s.key[j.val] = false) →
    ∃ t, cycles k s = .next t ∧ t.mem = s.mem ∧ KeepsBut [.word, .delayTimer, .soundTimer] s t ∧
      t.dt.toNat = s.dt.toNat - k ∧ t.st.toNat = s.st.toNat - k

/-! ### Whole-machine rules -/

/-- DERIVED (60_exceptions.md, model faults; decisions D8 to D10, D12, D25, logs 1 to 5): no instruction is refused, and an
instruction faults only where the table of the five faults says, with what it carries: a draw faults on the buffer only
with the index of one of its own set pixels. -/
def Obligations.FaultsAreTheListedFive : Prop :=
  ∀ (i : Instr) (s : State),
    (∀ r, exec i s ≠ .refused r) ∧ (∀ r, step s ≠ .refused r) ∧
    ∀ f, exec i s = .fault f →
      (∃ nnn, i = .call nnn ∧ s.sp.val = 16 ∧ f = .stackOverflow s.pc) ∨
      (i = .ret ∧ s.sp.val = 0 ∧ f = .stackUnderflow s.pc) ∨
      (∃ x, (i = .skp x ∨ i = .sknp x) ∧ 15 < (s.getV x).toNat ∧ f = .keyIndexOutOfRange (s.getV x)) ∨
      (∃ x, i = .ldBcd x ∧ 0xFFF < s.i.toNat + 2 ∧ f = .memOutOfRange (s.i.toNat + 2)) ∨
      (∃ x, (i = .storeRegs x ∨ i = .loadRegs x) ∧ 0xFFF < s.i.toNat + x.val ∧
        f = .memOutOfRange (s.i.toNat + x.val)) ∨
      (∃ x y n, i = .drw x y n ∧ 0 < n.toNat ∧ 0xFFF < s.i.toNat + (n.toNat - 1) ∧
        f = .memOutOfRange (s.i.toNat + (n.toNat - 1))) ∨
      (∃ x y n r c, i = .drw x y n ∧ s.i.toNat + (n.toNat - 1) ≤ 0xFFF ∧ r < n.toNat ∧ c < 8 ∧
        s.spriteBit r c = true ∧ Config.videoCells ≤ spriteIndex (s.getV x) (s.getV y) r c ∧
        f = .videoOutOfRange (spriteIndex (s.getV x) (s.getV y) r c))

/-- DERIVED (10_state.md sections 1 to 3, 5 to 9 and 13; 20_memory.md section 1; decision D4, log 19): which instructions can
change each part of the state but `pc`: a register only as the x field, `VF`, or in a block load; none changes the keypad, the
transient word or the seed. The seed and the draw counter are the model's own fields (log 13). -/
def Obligations.PartsHaveTheListedWriters : Prop :=
  ∀ (i : Instr) (s t : State), exec i s = .next t →
    (∀ r, t.getV r ≠ s.getV r → i.operandX = some r ∨ r = 15 ∨ ∃ x, i = .loadRegs x ∧ r ≤ x) ∧
    (t.mem ≠ s.mem → ∃ x, i = .ldBcd x ∨ i = .storeRegs x) ∧
    (t.video ≠ s.video → i = .cls ∨ ∃ x y n, i = .drw x y n) ∧
    (t.i ≠ s.i → (∃ nnn, i = .ldI nnn) ∨ ∃ x, i = .addI x ∨ i = .ldFont x) ∧
    (t.stack ≠ s.stack → ∃ nnn, i = .call nnn) ∧
    (t.sp ≠ s.sp → i = .ret ∨ ∃ nnn, i = .call nnn) ∧
    (t.dt ≠ s.dt → ∃ x, i = .ldToDT x) ∧ (t.st ≠ s.st → ∃ x, i = .ldToST x) ∧
    (t.draws ≠ s.draws → ∃ x kk, i = .rnd x kk) ∧ t.seed = s.seed ∧ t.key = s.key ∧
    t.opcode = s.opcode

/-- DERIVED (10_state.md, stack; the slot and the fault by decisions D9 and D33, log 3): the stack is sixteen 16-bit entries that
no fetch, load or store reaches. Only `CALL` writes it: the whole `pc`, into entry `sp`. Only `RET` reads it: with any other
contents every other instruction does the same, a fault included, and `CALL` writes the same entry. -/
def Obligations.StackIsReachedOnlyByCallAndRet : Prop :=
  ∀ (i : Instr) (s : State) (stack : Vector Word 16),
    (s.setStack stack s.sp).fetch = s.fetch ∧ (∀ a, (s.setStack stack s.sp).memRead a = s.memRead a) ∧
    (∀ t, exec i s = .next t →
      match i with
      | .call _ =>
        (∀ k : Fin 16, t.stack[k.val] = if k.val = s.sp.val then s.pc else s.stack[k.val]) ∧
        ∃ u, exec i (s.setStack stack s.sp) = .next u ∧ u.mem = t.mem ∧ KeepsBut [.returnStack] t u ∧
          ∀ k : Fin 16, u.stack[k.val] = if k.val = s.sp.val then s.pc else stack[k.val]
      | .ret => t.stack = s.stack
      | _ => t.stack = s.stack ∧
        ∃ u, exec i (s.setStack stack s.sp) = .next u ∧ u.mem = t.mem ∧ KeepsBut [.returnStack] t u ∧
          u.stack = stack) ∧
    (∀ f, exec i s = .fault f → exec i (s.setStack stack s.sp) = .fault f)

/-- R26: `DT` is written by `LD DT, Vx`, read by `LD Vx, DT`, decremented at the end of every cycle while nonzero, and has no
other effect: with any other value every other instruction does the same. -/
def Obligations.DelayTimerHasNoOtherEffect : Prop :=
  (∀ (x : Reg) (s : State), ∃ t, exec (.ldToDT x) s = .next t ∧ t.dt = s.getV x) ∧
  (∀ (x : Reg) (s : State), ∃ t, exec (.ldFromDT x) s = .next t ∧ t.getV x = s.dt) ∧
  (∀ (s t : State), step s = .next t → ∃ w u, s.fetch = .ok w ∧ exec (decode w) (s.advance w) = .next u ∧
    t.dt.toNat = u.dt.toNat - 1) ∧
  (∀ (i : Instr) (s t : State), exec i s = .next t → t.dt ≠ s.dt → ∃ x, i = .ldToDT x) ∧
  (∀ (i : Instr) (s : State) (b : Byte), (∀ x, i ≠ .ldToDT x) → (∀ x, i ≠ .ldFromDT x) →
    exec i (s.setDT b) = mapNext (fun t => t.setDT b) (exec i s))

/-- R27: `ST` is written by `LD ST, Vx`, decremented exactly as `DT`, and read by no instruction: with any other value every
instruction does the same. -/
def Obligations.SoundTimerIsReadByNothing : Prop :=
  (∀ (x : Reg) (s : State), ∃ t, exec (.ldToST x) s = .next t ∧ t.st = s.getV x) ∧
  (∀ (s t : State), step s = .next t → ∃ w u, s.fetch = .ok w ∧ exec (decode w) (s.advance w) = .next u ∧
    t.st.toNat = u.st.toNat - 1 ∧ t.dt.toNat = u.dt.toNat - 1) ∧
  (∀ (i : Instr) (s t : State), exec i s = .next t → t.st ≠ s.st → ∃ x, i = .ldToST x) ∧
  (∀ (i : Instr) (s : State) (b : Byte), (∀ x, i ≠ .ldToST x) →
    exec i (s.setST b) = mapNext (fun t => t.setST b) (exec i s)) ∧
  (∀ (x : Reg) (s : State) (b : Byte), exec (.ldToST x) (s.setST b) = exec (.ldToST x) s)

/-- R29: the keypad has sixteen held bits, the core never writes it, the host may write it between any two cycles, and only
`SKP`, `SKNP` and `LD Vx, K` read it: with any other keys every other instruction does the same. -/
def Obligations.KeypadIsReadByThreeInstructions : Prop :=
  (∀ s t : State, step s = .next t → t.key = s.key) ∧
  (∀ (s : State) (key : Keys), ∃ t, Engine.accept (.running s) (.keys key) = some (.running t) ∧ t.key = key ∧
    t.mem = s.mem ∧ KeepsBut [.keypad] s t) ∧
  (∀ (i : Instr) (s : State) (key : Keys),
    (∀ x, i ≠ .skp x) → (∀ x, i ≠ .sknp x) → (∀ x, i ≠ .ldKey x) →
    exec i (s.setKeys key) = mapNext (fun t => t.setKeys key) (exec i s))

/-- R30: the transient word is written by the fetch, and its value between cycles is not observable: a cycle does the same
whatever it was. -/
def Obligations.OpcodeIsNotObservable : Prop :=
  (∀ (s : State) (w : Word), step { s with opcode := w } = step s) ∧
  (∀ s t : State, step s = .next t → s.fetch = .ok t.opcode)

/-- DERIVED (10_state.md, index register; decisions D5 to D7, logs 17, 20 and 21): no instruction masks `I`. `LD I` and
`LD F` give it a value that does not depend on the old one, `ADD I` adds to it modulo 65536, every other instruction leaves it;
and but for the four that use it as an address no instruction does anything else with another `I`, a fault included. -/
def Obligations.IndexIsReadOnlyAsAnAddress : Prop :=
  (∀ (i : Instr) (s t : State), exec i s = .next t →
    match i with
    | .ldI nnn => t.i.toNat = nnn.toNat ∧
        ∀ w, ∃ u, exec i (s.setI w) = .next u ∧ u.i = t.i ∧ u.mem = t.mem ∧ KeepsBut [] t u
    | .ldFont x => t.i.toNat = 0x050 + 5 * (s.getV x).toNat ∧
        ∀ w, ∃ u, exec i (s.setI w) = .next u ∧ u.i = t.i ∧ u.mem = t.mem ∧ KeepsBut [] t u
    | .addI x => t.i.toNat = (s.i.toNat + (s.getV x).toNat) % 65536 ∧
        ∀ w, ∃ u, exec i (s.setI w) = .next u ∧ u.i.toNat = (w.toNat + (s.getV x).toNat) % 65536 ∧
          u.mem = t.mem ∧ KeepsBut [.index] t u
    | .drw _ _ _ | .ldBcd _ | .storeRegs _ | .loadRegs _ => t.i = s.i
    | _ => t.i = s.i ∧
        ∀ w, ∃ u, exec i (s.setI w) = .next u ∧ u.i = w ∧ u.mem = t.mem ∧ KeepsBut [.index] t u) ∧
  (∀ (i : Instr) (s : State) (f : Fault), exec i s = .fault f →
    match i with
    | .drw _ _ _ | .ldBcd _ | .storeRegs _ | .loadRegs _ => True
    | _ => ∀ w, exec i (s.setI w) = .fault f)

/-! ### The host -/

/-- DERIVED (70_reset_and_hazards.md, ROM load and its limits; decision D19, log 25; the canonical form and the engine's events
are the model's choices, logs 15 and 29): an image of at most 3584 bytes is copied from 0x200 up and nothing else changes,
its first two bytes are the first word fetched, the model's form of memory is kept, and the engine takes the load; a longer
one is refused, and the engine has no move for it. -/
def Obligations.RomLoadCopiesImage : Prop :=
  ∀ (video : Video) (key : Keys) (seed : Nat) (rom : List Byte),
    (rom.length ≤ 3584 → ∃ t, (State.launch video key seed).loadRom rom = .next t ∧ t.Inv ∧
      Engine.accept (.constructed (State.launch video key seed)) (.romLoad rom) = some (.running t) ∧
      (∀ k b, rom[k]? = some b → t.memRead (0x200 + k) = .ok b) ∧
      MemoryKeptOutside 0x200 rom.length (State.launch video key seed) t ∧
      KeepsBut [.memory] (State.launch video key seed) t ∧
      (∀ hi lo rest, rom = hi :: lo :: rest → t.fetch = .ok (hi ++ lo))) ∧
    (3584 < rom.length → (State.launch video key seed).loadRom rom = .refused (.romTooLong rom.length) ∧
      Engine.accept (.constructed (State.launch video key seed)) (.romLoad rom) = none)

/-- DERIVED (70_reset_and_hazards.md, interface and host; 10_state.md section 13, fault mark; decisions D20, D23 and D25; the
engine's form is the model's choice, logs 1 and 29): reset constructs the launch state, once and first, then comes the load,
then cycles; a cycle is a step; a fault is never cleared. -/
def Obligations.EngineTakesEventsInOrder : Prop :=
  (∀ (video : Video) (key : Keys) (seed : Nat),
    Engine.accept .absent (.reset video key seed) = some (.constructed (State.launch video key seed))) ∧
  (∀ (e : Engine) (video : Video) (key : Keys) (seed : Nat), e.accept (.reset video key seed) ≠ none → e = .absent) ∧
  (∀ (e : Engine) (rom : List Byte), e.accept (.romLoad rom) ≠ none → ∃ s, e = .constructed s) ∧
  (∀ e : Engine, e.accept .cycle ≠ none → (∃ s, e = .running s) ∨ ∃ f, e = .faulted f) ∧
  (∀ s t : State, step s = .next t → Engine.accept (.running s) .cycle = some (.running t)) ∧
  (∀ (s : State) (f : Fault), step s = .fault f → Engine.accept (.running s) .cycle = some (.faulted f)) ∧
  (∀ (f : Fault) (evs : List Event) (e : Engine), Engine.play (.faulted f) evs = some e → e = .faulted f)

/-! ### The random source -/

/-- DERIVED (44_bcd_random.md, random source; decision D21; the seed and the counter are the model's own fields, log 13): with
any other random source every instruction but `RND` does the same; `RND` gives that source's own byte, masked, and nothing
else of it shows; no cycle changes the seed or takes a draw back. -/
def Obligations.RandomSourceIsReadOnlyByRnd : Prop :=
  (∀ (i : Instr) (s : State) (seed draws : Nat), (∀ x kk, i ≠ .rnd x kk) →
    exec i (s.setSource seed draws) = mapNext (fun t => t.setSource seed draws) (exec i s)) ∧
  (∀ (x : Reg) (kk : Byte) (s : State) (seed draws : Nat), ∃ t, exec (.rnd x kk) (s.setSource seed draws) = .next t ∧
    t.getV x = Config.freeByte seed draws &&& kk ∧ t.seed = seed ∧ t.draws = draws + 1 ∧
    RegsKeptBut [x] s t ∧ KeepsBut [.registers, .source, .drawn] s t) ∧
  (∀ s t : State, step s = .next t → t.seed = s.seed ∧ s.draws ≤ t.draws)
end

