-- ==== Sys2Proof/Laws/Memory.lean ====
section
/-! SUPPORT. The laws of memory as data: what a store reads back as, and that it keeps the canonical form. -/

namespace Sys2Proof.Machine

/-- The size of memory as a number, for linear arithmetic. -/
theorem memSize_eq : Config.memSize = 4096 := rfl

/-- The canonical form, one cell at a time. -/
theorem Memory.wfFrom_cons {lo k : Nat} {c : Byte} {m : Memory} :
    Memory.wfFrom lo ((k, c) :: m) = true ↔
      lo ≤ k ∧ k < Config.memSize ∧ c ≠ Memory.initial k ∧ Memory.wfFrom (k + 1) m = true := by
  simp [Memory.wfFrom, and_assoc]

/-- A list that starts at or above `lo'` starts at or above any smaller bound. -/
theorem Memory.wfFrom_mono {lo lo' : Nat} {m : Memory} (hle : lo ≤ lo') (h : Memory.wfFrom lo' m = true) :
    Memory.wfFrom lo m = true := by
  cases m with
  | nil => rfl
  | cons kc m =>
    obtain ⟨k, c⟩ := kc
    rw [Memory.wfFrom_cons] at h ⊢
    exact ⟨hle.trans h.1, h.2⟩

/-- An address below every listed one reads as unlisted. -/
theorem Memory.lookup_below {lo a : Nat} {m : Memory} (h : Memory.wfFrom lo m = true) (ha : a < lo) :
    m.lookup a = Memory.initial a := by
  induction m generalizing lo with
  | nil => rfl
  | cons kc m ih =>
    obtain ⟨k, c⟩ := kc
    obtain ⟨hlo, -, -, hm⟩ := Memory.wfFrom_cons.1 h
    rw [Memory.lookup, if_neg (by omega)]
    exact ih hm (by omega)

/-- Pushing a cell in front makes its address read as its byte. -/
theorem Memory.lookup_push {a c : Nat} {b : Byte} {m : Memory} (h : Memory.wfFrom (a + 1) m = true) :
    (Memory.push a b m).lookup c = if c = a then b else m.lookup c := by
  unfold Memory.push
  by_cases hb : b = Memory.initial a
  · rw [if_pos hb]
    split
    · next hc => rw [hc, Memory.lookup_below h (Nat.lt_succ_self a), hb]
    · rfl
  · rw [if_neg hb, Memory.lookup]
    by_cases hc : c = a
    · rw [if_pos hc, if_pos hc.symm]
    · rw [if_neg hc, if_neg (Ne.symm hc)]

/-- Pushing a cell in front keeps the canonical form. -/
theorem Memory.wfFrom_push {lo a : Nat} {b : Byte} {m : Memory} (hlo : lo ≤ a) (ha : a < Config.memSize)
    (h : Memory.wfFrom (a + 1) m = true) : Memory.wfFrom lo (Memory.push a b m) = true := by
  unfold Memory.push
  split
  · exact Memory.wfFrom_mono (by omega) h
  · next hb => exact Memory.wfFrom_cons.2 ⟨hlo, ha, hb, h⟩

/-- A store keeps the canonical form. -/
theorem Memory.wfFrom_store {lo a : Nat} {b : Byte} {m : Memory} (hlo : lo ≤ a) (ha : a < Config.memSize)
    (h : Memory.wfFrom lo m = true) : Memory.wfFrom lo (m.store a b) = true := by
  induction m generalizing lo with
  | nil => exact Memory.wfFrom_push hlo ha rfl
  | cons kc m ih =>
    obtain ⟨k, c⟩ := kc
    obtain ⟨hk, hk', hc, hm⟩ := Memory.wfFrom_cons.1 h
    rw [Memory.store]
    split
    · next hak => exact Memory.wfFrom_push hlo ha (Memory.wfFrom_cons.2 ⟨hak, hk', hc, hm⟩)
    · split
      · next _ hak => subst hak; exact Memory.wfFrom_push hlo ha hm
      · exact Memory.wfFrom_cons.2 ⟨hk, hk', hc, ih (by omega) hm⟩

/-- A read after a store: the byte stored at that address, and what was there elsewhere. -/
theorem Memory.lookup_store {lo a c : Nat} {b : Byte} {m : Memory} (h : Memory.wfFrom lo m = true) :
    (m.store a b).lookup c = if c = a then b else m.lookup c := by
  induction m generalizing lo with
  | nil => exact Memory.lookup_push rfl
  | cons kc m ih =>
    obtain ⟨k, d⟩ := kc
    obtain ⟨hk, hk', hd, hm⟩ := Memory.wfFrom_cons.1 h
    rw [Memory.store]
    split
    · next hak => exact Memory.lookup_push (Memory.wfFrom_cons.2 ⟨hak, hk', hd, hm⟩)
    · split
      · next _ hak =>
        subst hak
        rw [Memory.lookup_push hm, Memory.lookup]
        split
        · rfl
        · next hc => rw [if_neg (Ne.symm hc)]
      · next _ hak =>
        rw [Memory.lookup, Memory.lookup, ih hm]
        by_cases hc : k = c
        · subst hc
          rw [if_pos rfl, if_neg (Ne.symm hak), if_pos rfl]
        · rw [if_neg hc, if_neg hc]

/-- Every memory operation keeps the canonical form; the store is the only one that changes memory. -/
theorem Memory.wf_store {a : Nat} {b : Byte} {m : Memory} (ha : a < Config.memSize) (h : m.wf = true) :
    (m.store a b).wf = true :=
  Memory.wfFrom_store (Nat.zero_le a) ha h

/-- Reset memory is canonical. -/
theorem State.reset_mem_wf : State.reset.mem.wf = true := rfl

end Sys2Proof.Machine
end

