-- ==== Sys2Proof/Laws/State.lean ====
section
/-! SUPPORT. One lemma per field per update, true by unfolding the update, so that no later proof unfolds a record. -/

namespace Sys2Proof.Machine

variable (s : State)

/-! ### `setV` -/

@[simp] theorem State.mem_setV (r : Reg) (b : Byte) : (s.setV r b).mem = s.mem := rfl
@[simp] theorem State.v_setV (r : Reg) (b : Byte) : (s.setV r b).v = s.v.set r.val b := rfl
@[simp] theorem State.i_setV (r : Reg) (b : Byte) : (s.setV r b).i = s.i := rfl
@[simp] theorem State.pc_setV (r : Reg) (b : Byte) : (s.setV r b).pc = s.pc := rfl
@[simp] theorem State.stack_setV (r : Reg) (b : Byte) : (s.setV r b).stack = s.stack := rfl
@[simp] theorem State.sp_setV (r : Reg) (b : Byte) : (s.setV r b).sp = s.sp := rfl
@[simp] theorem State.dt_setV (r : Reg) (b : Byte) : (s.setV r b).dt = s.dt := rfl
@[simp] theorem State.st_setV (r : Reg) (b : Byte) : (s.setV r b).st = s.st := rfl
@[simp] theorem State.opcode_setV (r : Reg) (b : Byte) : (s.setV r b).opcode = s.opcode := rfl
@[simp] theorem State.video_setV (r : Reg) (b : Byte) : (s.setV r b).video = s.video := rfl
@[simp] theorem State.key_setV (r : Reg) (b : Byte) : (s.setV r b).key = s.key := rfl
@[simp] theorem State.seed_setV (r : Reg) (b : Byte) : (s.setV r b).seed = s.seed := rfl
@[simp] theorem State.draws_setV (r : Reg) (b : Byte) : (s.setV r b).draws = s.draws := rfl

/-! ### `setI` -/

@[simp] theorem State.mem_setI (w : Word) : (s.setI w).mem = s.mem := rfl
@[simp] theorem State.v_setI (w : Word) : (s.setI w).v = s.v := rfl
@[simp] theorem State.i_setI (w : Word) : (s.setI w).i = w := rfl
@[simp] theorem State.pc_setI (w : Word) : (s.setI w).pc = s.pc := rfl
@[simp] theorem State.stack_setI (w : Word) : (s.setI w).stack = s.stack := rfl
@[simp] theorem State.sp_setI (w : Word) : (s.setI w).sp = s.sp := rfl
@[simp] theorem State.dt_setI (w : Word) : (s.setI w).dt = s.dt := rfl
@[simp] theorem State.st_setI (w : Word) : (s.setI w).st = s.st := rfl
@[simp] theorem State.opcode_setI (w : Word) : (s.setI w).opcode = s.opcode := rfl
@[simp] theorem State.video_setI (w : Word) : (s.setI w).video = s.video := rfl
@[simp] theorem State.key_setI (w : Word) : (s.setI w).key = s.key := rfl
@[simp] theorem State.seed_setI (w : Word) : (s.setI w).seed = s.seed := rfl
@[simp] theorem State.draws_setI (w : Word) : (s.setI w).draws = s.draws := rfl

/-! ### `setPc` -/

@[simp] theorem State.mem_setPc (w : Word) : (s.setPc w).mem = s.mem := rfl
@[simp] theorem State.v_setPc (w : Word) : (s.setPc w).v = s.v := rfl
@[simp] theorem State.i_setPc (w : Word) : (s.setPc w).i = s.i := rfl
@[simp] theorem State.pc_setPc (w : Word) : (s.setPc w).pc = w := rfl
@[simp] theorem State.stack_setPc (w : Word) : (s.setPc w).stack = s.stack := rfl
@[simp] theorem State.sp_setPc (w : Word) : (s.setPc w).sp = s.sp := rfl
@[simp] theorem State.dt_setPc (w : Word) : (s.setPc w).dt = s.dt := rfl
@[simp] theorem State.st_setPc (w : Word) : (s.setPc w).st = s.st := rfl
@[simp] theorem State.opcode_setPc (w : Word) : (s.setPc w).opcode = s.opcode := rfl
@[simp] theorem State.video_setPc (w : Word) : (s.setPc w).video = s.video := rfl
@[simp] theorem State.key_setPc (w : Word) : (s.setPc w).key = s.key := rfl
@[simp] theorem State.seed_setPc (w : Word) : (s.setPc w).seed = s.seed := rfl
@[simp] theorem State.draws_setPc (w : Word) : (s.setPc w).draws = s.draws := rfl

/-! ### `setDT` -/

@[simp] theorem State.mem_setDT (b : Byte) : (s.setDT b).mem = s.mem := rfl
@[simp] theorem State.v_setDT (b : Byte) : (s.setDT b).v = s.v := rfl
@[simp] theorem State.i_setDT (b : Byte) : (s.setDT b).i = s.i := rfl
@[simp] theorem State.pc_setDT (b : Byte) : (s.setDT b).pc = s.pc := rfl
@[simp] theorem State.stack_setDT (b : Byte) : (s.setDT b).stack = s.stack := rfl
@[simp] theorem State.sp_setDT (b : Byte) : (s.setDT b).sp = s.sp := rfl
@[simp] theorem State.dt_setDT (b : Byte) : (s.setDT b).dt = b := rfl
@[simp] theorem State.st_setDT (b : Byte) : (s.setDT b).st = s.st := rfl
@[simp] theorem State.opcode_setDT (b : Byte) : (s.setDT b).opcode = s.opcode := rfl
@[simp] theorem State.video_setDT (b : Byte) : (s.setDT b).video = s.video := rfl
@[simp] theorem State.key_setDT (b : Byte) : (s.setDT b).key = s.key := rfl
@[simp] theorem State.seed_setDT (b : Byte) : (s.setDT b).seed = s.seed := rfl
@[simp] theorem State.draws_setDT (b : Byte) : (s.setDT b).draws = s.draws := rfl

/-! ### `setST` -/

@[simp] theorem State.mem_setST (b : Byte) : (s.setST b).mem = s.mem := rfl
@[simp] theorem State.v_setST (b : Byte) : (s.setST b).v = s.v := rfl
@[simp] theorem State.i_setST (b : Byte) : (s.setST b).i = s.i := rfl
@[simp] theorem State.pc_setST (b : Byte) : (s.setST b).pc = s.pc := rfl
@[simp] theorem State.stack_setST (b : Byte) : (s.setST b).stack = s.stack := rfl
@[simp] theorem State.sp_setST (b : Byte) : (s.setST b).sp = s.sp := rfl
@[simp] theorem State.dt_setST (b : Byte) : (s.setST b).dt = s.dt := rfl
@[simp] theorem State.st_setST (b : Byte) : (s.setST b).st = b := rfl
@[simp] theorem State.opcode_setST (b : Byte) : (s.setST b).opcode = s.opcode := rfl
@[simp] theorem State.video_setST (b : Byte) : (s.setST b).video = s.video := rfl
@[simp] theorem State.key_setST (b : Byte) : (s.setST b).key = s.key := rfl
@[simp] theorem State.seed_setST (b : Byte) : (s.setST b).seed = s.seed := rfl
@[simp] theorem State.draws_setST (b : Byte) : (s.setST b).draws = s.draws := rfl

/-! ### `setMem` -/

@[simp] theorem State.mem_setMem (m : Memory) : (s.setMem m).mem = m := rfl
@[simp] theorem State.v_setMem (m : Memory) : (s.setMem m).v = s.v := rfl
@[simp] theorem State.i_setMem (m : Memory) : (s.setMem m).i = s.i := rfl
@[simp] theorem State.pc_setMem (m : Memory) : (s.setMem m).pc = s.pc := rfl
@[simp] theorem State.stack_setMem (m : Memory) : (s.setMem m).stack = s.stack := rfl
@[simp] theorem State.sp_setMem (m : Memory) : (s.setMem m).sp = s.sp := rfl
@[simp] theorem State.dt_setMem (m : Memory) : (s.setMem m).dt = s.dt := rfl
@[simp] theorem State.st_setMem (m : Memory) : (s.setMem m).st = s.st := rfl
@[simp] theorem State.opcode_setMem (m : Memory) : (s.setMem m).opcode = s.opcode := rfl
@[simp] theorem State.video_setMem (m : Memory) : (s.setMem m).video = s.video := rfl
@[simp] theorem State.key_setMem (m : Memory) : (s.setMem m).key = s.key := rfl
@[simp] theorem State.seed_setMem (m : Memory) : (s.setMem m).seed = s.seed := rfl
@[simp] theorem State.draws_setMem (m : Memory) : (s.setMem m).draws = s.draws := rfl

/-! ### `setVideo` -/

@[simp] theorem State.mem_setVideo (d : Video) : (s.setVideo d).mem = s.mem := rfl
@[simp] theorem State.v_setVideo (d : Video) : (s.setVideo d).v = s.v := rfl
@[simp] theorem State.i_setVideo (d : Video) : (s.setVideo d).i = s.i := rfl
@[simp] theorem State.pc_setVideo (d : Video) : (s.setVideo d).pc = s.pc := rfl
@[simp] theorem State.stack_setVideo (d : Video) : (s.setVideo d).stack = s.stack := rfl
@[simp] theorem State.sp_setVideo (d : Video) : (s.setVideo d).sp = s.sp := rfl
@[simp] theorem State.dt_setVideo (d : Video) : (s.setVideo d).dt = s.dt := rfl
@[simp] theorem State.st_setVideo (d : Video) : (s.setVideo d).st = s.st := rfl
@[simp] theorem State.opcode_setVideo (d : Video) : (s.setVideo d).opcode = s.opcode := rfl
@[simp] theorem State.video_setVideo (d : Video) : (s.setVideo d).video = d := rfl
@[simp] theorem State.key_setVideo (d : Video) : (s.setVideo d).key = s.key := rfl
@[simp] theorem State.seed_setVideo (d : Video) : (s.setVideo d).seed = s.seed := rfl
@[simp] theorem State.draws_setVideo (d : Video) : (s.setVideo d).draws = s.draws := rfl

/-! ### `setStack` -/

@[simp] theorem State.mem_setStack (k : Vector Word Config.stackDepth) (p : Fin 17) : (s.setStack k p).mem = s.mem := rfl
@[simp] theorem State.v_setStack (k : Vector Word Config.stackDepth) (p : Fin 17) : (s.setStack k p).v = s.v := rfl
@[simp] theorem State.i_setStack (k : Vector Word Config.stackDepth) (p : Fin 17) : (s.setStack k p).i = s.i := rfl
@[simp] theorem State.pc_setStack (k : Vector Word Config.stackDepth) (p : Fin 17) : (s.setStack k p).pc = s.pc := rfl
@[simp] theorem State.stack_setStack (k : Vector Word Config.stackDepth) (p : Fin 17) : (s.setStack k p).stack = k := rfl
@[simp] theorem State.sp_setStack (k : Vector Word Config.stackDepth) (p : Fin 17) : (s.setStack k p).sp = p := rfl
@[simp] theorem State.dt_setStack (k : Vector Word Config.stackDepth) (p : Fin 17) : (s.setStack k p).dt = s.dt := rfl
@[simp] theorem State.st_setStack (k : Vector Word Config.stackDepth) (p : Fin 17) : (s.setStack k p).st = s.st := rfl
@[simp] theorem State.opcode_setStack (k : Vector Word Config.stackDepth) (p : Fin 17) : (s.setStack k p).opcode = s.opcode := rfl
@[simp] theorem State.video_setStack (k : Vector Word Config.stackDepth) (p : Fin 17) : (s.setStack k p).video = s.video := rfl
@[simp] theorem State.key_setStack (k : Vector Word Config.stackDepth) (p : Fin 17) : (s.setStack k p).key = s.key := rfl
@[simp] theorem State.seed_setStack (k : Vector Word Config.stackDepth) (p : Fin 17) : (s.setStack k p).seed = s.seed := rfl
@[simp] theorem State.draws_setStack (k : Vector Word Config.stackDepth) (p : Fin 17) : (s.setStack k p).draws = s.draws := rfl

/-! ### `countDraw` -/

@[simp] theorem State.mem_countDraw : (s.countDraw).mem = s.mem := rfl
@[simp] theorem State.v_countDraw : (s.countDraw).v = s.v := rfl
@[simp] theorem State.i_countDraw : (s.countDraw).i = s.i := rfl
@[simp] theorem State.pc_countDraw : (s.countDraw).pc = s.pc := rfl
@[simp] theorem State.stack_countDraw : (s.countDraw).stack = s.stack := rfl
@[simp] theorem State.sp_countDraw : (s.countDraw).sp = s.sp := rfl
@[simp] theorem State.dt_countDraw : (s.countDraw).dt = s.dt := rfl
@[simp] theorem State.st_countDraw : (s.countDraw).st = s.st := rfl
@[simp] theorem State.opcode_countDraw : (s.countDraw).opcode = s.opcode := rfl
@[simp] theorem State.video_countDraw : (s.countDraw).video = s.video := rfl
@[simp] theorem State.key_countDraw : (s.countDraw).key = s.key := rfl
@[simp] theorem State.seed_countDraw : (s.countDraw).seed = s.seed := rfl
@[simp] theorem State.draws_countDraw : (s.countDraw).draws = s.draws + 1 := rfl

/-! ### `setSource` -/

@[simp] theorem State.mem_setSource (a b : Nat) : (s.setSource a b).mem = s.mem := rfl
@[simp] theorem State.v_setSource (a b : Nat) : (s.setSource a b).v = s.v := rfl
@[simp] theorem State.i_setSource (a b : Nat) : (s.setSource a b).i = s.i := rfl
@[simp] theorem State.pc_setSource (a b : Nat) : (s.setSource a b).pc = s.pc := rfl
@[simp] theorem State.stack_setSource (a b : Nat) : (s.setSource a b).stack = s.stack := rfl
@[simp] theorem State.sp_setSource (a b : Nat) : (s.setSource a b).sp = s.sp := rfl
@[simp] theorem State.dt_setSource (a b : Nat) : (s.setSource a b).dt = s.dt := rfl
@[simp] theorem State.st_setSource (a b : Nat) : (s.setSource a b).st = s.st := rfl
@[simp] theorem State.opcode_setSource (a b : Nat) : (s.setSource a b).opcode = s.opcode := rfl
@[simp] theorem State.video_setSource (a b : Nat) : (s.setSource a b).video = s.video := rfl
@[simp] theorem State.key_setSource (a b : Nat) : (s.setSource a b).key = s.key := rfl
@[simp] theorem State.seed_setSource (a b : Nat) : (s.setSource a b).seed = a := rfl
@[simp] theorem State.draws_setSource (a b : Nat) : (s.setSource a b).draws = b := rfl

/-! ### `advance` -/

@[simp] theorem State.mem_advance (w : Word) : (s.advance w).mem = s.mem := rfl
@[simp] theorem State.v_advance (w : Word) : (s.advance w).v = s.v := rfl
@[simp] theorem State.i_advance (w : Word) : (s.advance w).i = s.i := rfl
@[simp] theorem State.pc_advance (w : Word) : (s.advance w).pc = s.pc + 2 := rfl
@[simp] theorem State.stack_advance (w : Word) : (s.advance w).stack = s.stack := rfl
@[simp] theorem State.sp_advance (w : Word) : (s.advance w).sp = s.sp := rfl
@[simp] theorem State.dt_advance (w : Word) : (s.advance w).dt = s.dt := rfl
@[simp] theorem State.st_advance (w : Word) : (s.advance w).st = s.st := rfl
@[simp] theorem State.opcode_advance (w : Word) : (s.advance w).opcode = w := rfl
@[simp] theorem State.video_advance (w : Word) : (s.advance w).video = s.video := rfl
@[simp] theorem State.key_advance (w : Word) : (s.advance w).key = s.key := rfl
@[simp] theorem State.seed_advance (w : Word) : (s.advance w).seed = s.seed := rfl
@[simp] theorem State.draws_advance (w : Word) : (s.advance w).draws = s.draws := rfl

/-! ### `tick` -/

@[simp] theorem State.mem_tick : (s.tick).mem = s.mem := rfl
@[simp] theorem State.v_tick : (s.tick).v = s.v := rfl
@[simp] theorem State.i_tick : (s.tick).i = s.i := rfl
@[simp] theorem State.pc_tick : (s.tick).pc = s.pc := rfl
@[simp] theorem State.stack_tick : (s.tick).stack = s.stack := rfl
@[simp] theorem State.sp_tick : (s.tick).sp = s.sp := rfl
@[simp] theorem State.dt_tick : (s.tick).dt = countDown s.dt := rfl
@[simp] theorem State.st_tick : (s.tick).st = countDown s.st := rfl
@[simp] theorem State.opcode_tick : (s.tick).opcode = s.opcode := rfl
@[simp] theorem State.video_tick : (s.tick).video = s.video := rfl
@[simp] theorem State.key_tick : (s.tick).key = s.key := rfl
@[simp] theorem State.seed_tick : (s.tick).seed = s.seed := rfl
@[simp] theorem State.draws_tick : (s.tick).draws = s.draws := rfl

/-! ### `setKeys` -/

@[simp] theorem State.mem_setKeys (k : Keys) : (s.setKeys k).mem = s.mem := rfl
@[simp] theorem State.v_setKeys (k : Keys) : (s.setKeys k).v = s.v := rfl
@[simp] theorem State.i_setKeys (k : Keys) : (s.setKeys k).i = s.i := rfl
@[simp] theorem State.pc_setKeys (k : Keys) : (s.setKeys k).pc = s.pc := rfl
@[simp] theorem State.stack_setKeys (k : Keys) : (s.setKeys k).stack = s.stack := rfl
@[simp] theorem State.sp_setKeys (k : Keys) : (s.setKeys k).sp = s.sp := rfl
@[simp] theorem State.dt_setKeys (k : Keys) : (s.setKeys k).dt = s.dt := rfl
@[simp] theorem State.st_setKeys (k : Keys) : (s.setKeys k).st = s.st := rfl
@[simp] theorem State.opcode_setKeys (k : Keys) : (s.setKeys k).opcode = s.opcode := rfl
@[simp] theorem State.video_setKeys (k : Keys) : (s.setKeys k).video = s.video := rfl
@[simp] theorem State.key_setKeys (k : Keys) : (s.setKeys k).key = k := rfl
@[simp] theorem State.seed_setKeys (k : Keys) : (s.setKeys k).seed = s.seed := rfl
@[simp] theorem State.draws_setKeys (k : Keys) : (s.setKeys k).draws = s.draws := rfl

/-! ### Registers and memory through the updates -/

@[simp] theorem State.memRead_setV (r : Reg) (b : Byte) (q : Nat) : (s.setV r b).memRead q = s.memRead q := rfl
@[simp] theorem State.getV_setI (w : Word) (q : Reg) : (s.setI w).getV q = s.getV q := rfl
@[simp] theorem State.memRead_setI (w : Word) (q : Nat) : (s.setI w).memRead q = s.memRead q := rfl
@[simp] theorem State.getV_setPc (w : Word) (q : Reg) : (s.setPc w).getV q = s.getV q := rfl
@[simp] theorem State.memRead_setPc (w : Word) (q : Nat) : (s.setPc w).memRead q = s.memRead q := rfl
@[simp] theorem State.getV_setDT (b : Byte) (q : Reg) : (s.setDT b).getV q = s.getV q := rfl
@[simp] theorem State.memRead_setDT (b : Byte) (q : Nat) : (s.setDT b).memRead q = s.memRead q := rfl
@[simp] theorem State.getV_setST (b : Byte) (q : Reg) : (s.setST b).getV q = s.getV q := rfl
@[simp] theorem State.memRead_setST (b : Byte) (q : Nat) : (s.setST b).memRead q = s.memRead q := rfl
@[simp] theorem State.getV_setMem (m : Memory) (q : Reg) : (s.setMem m).getV q = s.getV q := rfl
@[simp] theorem State.getV_setVideo (d : Video) (q : Reg) : (s.setVideo d).getV q = s.getV q := rfl
@[simp] theorem State.memRead_setVideo (d : Video) (q : Nat) : (s.setVideo d).memRead q = s.memRead q := rfl
@[simp] theorem State.getV_setStack (k : Vector Word Config.stackDepth) (p : Fin 17) (q : Reg) : (s.setStack k p).getV q = s.getV q := rfl
@[simp] theorem State.memRead_setStack (k : Vector Word Config.stackDepth) (p : Fin 17) (q : Nat) : (s.setStack k p).memRead q = s.memRead q := rfl
@[simp] theorem State.getV_countDraw (q : Reg) : (s.countDraw).getV q = s.getV q := rfl
@[simp] theorem State.memRead_countDraw (q : Nat) : (s.countDraw).memRead q = s.memRead q := rfl
@[simp] theorem State.getV_setSource (a b : Nat) (q : Reg) : (s.setSource a b).getV q = s.getV q := rfl
@[simp] theorem State.memRead_setSource (a b q : Nat) : (s.setSource a b).memRead q = s.memRead q := rfl
@[simp] theorem State.getV_advance (w : Word) (q : Reg) : (s.advance w).getV q = s.getV q := rfl
@[simp] theorem State.memRead_advance (w : Word) (q : Nat) : (s.advance w).memRead q = s.memRead q := rfl
@[simp] theorem State.getV_tick (q : Reg) : (s.tick).getV q = s.getV q := rfl
@[simp] theorem State.memRead_tick (q : Nat) : (s.tick).memRead q = s.memRead q := rfl
@[simp] theorem State.getV_setKeys (k : Keys) (q : Reg) : (s.setKeys k).getV q = s.getV q := rfl
@[simp] theorem State.memRead_setKeys (k : Keys) (q : Nat) : (s.setKeys k).memRead q = s.memRead q := rfl

/-- Reading a register after writing one. -/
theorem State.getV_setV (r q : Reg) (b : Byte) : (s.setV r b).getV q = if q = r then b else s.getV q := by
  unfold State.getV State.setV
  by_cases h : q = r
  · simp [h]
  · simp [h, Fin.val_ne_of_ne (Ne.symm h)]

@[simp] theorem State.getV_setV_same (r : Reg) (b : Byte) : (s.setV r b).getV r = b := by
  simp [State.getV_setV]

theorem State.getV_setV_other {r q : Reg} (h : q ≠ r) (b : Byte) : (s.setV r b).getV q = s.getV q := by
  simp [State.getV_setV, h]

/-- A register write that changes nothing. -/
theorem State.setV_getV (r : Reg) : s.setV r (s.getV r) = s := by
  simp [State.setV, State.getV]

/-- Two states are equal when their registers and every other field are. -/
theorem State.ext_getV {s t : State} (hv : ∀ r, s.getV r = t.getV r) (hm : s.mem = t.mem) (hi : s.i = t.i)
    (hp : s.pc = t.pc) (hk : s.stack = t.stack) (hs : s.sp = t.sp) (hd : s.dt = t.dt) (hst : s.st = t.st)
    (ho : s.opcode = t.opcode) (hvi : s.video = t.video) (hky : s.key = t.key) (hse : s.seed = t.seed)
    (hdr : s.draws = t.draws) : s = t := by
  have hv' : s.v = t.v := Vector.ext fun k hk => hv ⟨k, hk⟩
  cases s
  cases t
  simp_all

/-! ### Result and flag -/

/-- The flag of a flag-producing instruction is what `VF` holds afterwards (R131). -/
@[simp] theorem State.getV_setResultFlag_vf (x : Reg) (b : Byte) (f : Bool) :
    (s.setResultFlag x b f).getV .vf = flagByte f := by
  simp [State.setResultFlag]

/-- Every register after a flag-producing instruction. -/
theorem State.getV_setResultFlag (x q : Reg) (b : Byte) (f : Bool) :
    (s.setResultFlag x b f).getV q = if q = .vf then flagByte f else if q = x then b else s.getV q := by
  simp [State.setResultFlag, State.getV_setV]

@[simp] theorem State.mem_setResultFlag (x : Reg) (b : Byte) (f : Bool) : (s.setResultFlag x b f).mem = s.mem := rfl
@[simp] theorem State.i_setResultFlag (x : Reg) (b : Byte) (f : Bool) : (s.setResultFlag x b f).i = s.i := rfl
@[simp] theorem State.pc_setResultFlag (x : Reg) (b : Byte) (f : Bool) : (s.setResultFlag x b f).pc = s.pc := rfl
@[simp] theorem State.stack_setResultFlag (x : Reg) (b : Byte) (f : Bool) : (s.setResultFlag x b f).stack = s.stack := rfl
@[simp] theorem State.sp_setResultFlag (x : Reg) (b : Byte) (f : Bool) : (s.setResultFlag x b f).sp = s.sp := rfl
@[simp] theorem State.dt_setResultFlag (x : Reg) (b : Byte) (f : Bool) : (s.setResultFlag x b f).dt = s.dt := rfl
@[simp] theorem State.st_setResultFlag (x : Reg) (b : Byte) (f : Bool) : (s.setResultFlag x b f).st = s.st := rfl
@[simp] theorem State.opcode_setResultFlag (x : Reg) (b : Byte) (f : Bool) : (s.setResultFlag x b f).opcode = s.opcode := rfl
@[simp] theorem State.video_setResultFlag (x : Reg) (b : Byte) (f : Bool) : (s.setResultFlag x b f).video = s.video := rfl
@[simp] theorem State.key_setResultFlag (x : Reg) (b : Byte) (f : Bool) : (s.setResultFlag x b f).key = s.key := rfl
@[simp] theorem State.seed_setResultFlag (x : Reg) (b : Byte) (f : Bool) : (s.setResultFlag x b f).seed = s.seed := rfl
@[simp] theorem State.draws_setResultFlag (x : Reg) (b : Byte) (f : Bool) : (s.setResultFlag x b f).draws = s.draws := rfl
@[simp] theorem State.memRead_setResultFlag (x : Reg) (b : Byte) (f : Bool) (q : Nat) :
    (s.setResultFlag x b f).memRead q = s.memRead q := rfl

/-! ### Skips and rewinds -/

/-- A conditional skip is a write of the program counter (R108). -/
theorem State.skipIf_eq (c : Bool) : s.skipIf c = s.setPc (if c then s.pc + 2 else s.pc) := by
  cases c <;> rfl

/-- Where a conditional skip leaves the program counter (R108). -/
theorem State.pc_skipIf (c : Bool) : (s.skipIf c).pc = if c then s.pc + 2 else s.pc := by
  cases c <;> rfl

@[simp] theorem State.getV_skipIf (c : Bool) (q : Reg) : (s.skipIf c).getV q = s.getV q := by cases c <;> rfl
@[simp] theorem State.memRead_skipIf (c : Bool) (q : Nat) : (s.skipIf c).memRead q = s.memRead q := by cases c <;> rfl
@[simp] theorem State.mem_skipIf (c : Bool) : (s.skipIf c).mem = s.mem := by cases c <;> rfl
@[simp] theorem State.v_skipIf (c : Bool) : (s.skipIf c).v = s.v := by cases c <;> rfl
@[simp] theorem State.i_skipIf (c : Bool) : (s.skipIf c).i = s.i := by cases c <;> rfl
@[simp] theorem State.stack_skipIf (c : Bool) : (s.skipIf c).stack = s.stack := by cases c <;> rfl
@[simp] theorem State.sp_skipIf (c : Bool) : (s.skipIf c).sp = s.sp := by cases c <;> rfl
@[simp] theorem State.dt_skipIf (c : Bool) : (s.skipIf c).dt = s.dt := by cases c <;> rfl
@[simp] theorem State.st_skipIf (c : Bool) : (s.skipIf c).st = s.st := by cases c <;> rfl
@[simp] theorem State.opcode_skipIf (c : Bool) : (s.skipIf c).opcode = s.opcode := by cases c <;> rfl
@[simp] theorem State.video_skipIf (c : Bool) : (s.skipIf c).video = s.video := by cases c <;> rfl
@[simp] theorem State.key_skipIf (c : Bool) : (s.skipIf c).key = s.key := by cases c <;> rfl
@[simp] theorem State.seed_skipIf (c : Bool) : (s.skipIf c).seed = s.seed := by cases c <;> rfl
@[simp] theorem State.draws_skipIf (c : Bool) : (s.skipIf c).draws = s.draws := by cases c <;> rfl

/-- The rewind is a write of the program counter (R148). -/
theorem State.rewind_eq : s.rewind = s.setPc (s.pc - 2) := rfl

end Sys2Proof.Machine
end

