-- ==== Sys2Proof/Laws/Ops.lean ====
section
/-! SUPPORT. One lemma for each shared operation, with everything it can do; later proofs cite these and unfold nothing. -/

namespace Sys2Proof.Machine

variable {s t : State}

/-! ### Memory -/

/-- A read of an address that exists. -/
theorem State.memRead_of_lt {a : Nat} (h : a < Config.memSize) : s.memRead a = .ok (s.mem.lookup a) := if_pos h

/-- A read of an address that does not exist (R53). -/
theorem State.memRead_of_ge {a : Nat} (h : Config.memSize ≤ a) : s.memRead a = .error (.memOutOfRange a) :=
  if_neg (Nat.not_lt.2 h)

/-- A read answers a byte only where the address exists. -/
theorem State.memRead_ok {a : Nat} {b : Byte} (h : s.memRead a = .ok b) : a < Config.memSize ∧ b = s.mem.lookup a := by
  unfold State.memRead at h
  split at h
  · next ha => exact ⟨ha, (Except.ok.inj h).symm⟩
  · cases h

/-- A write that succeeds replaces memory by the store, and the address exists. -/
theorem State.memWrite_ok {a : Nat} {b : Byte} (h : s.memWrite a b = .ok t) :
    a < Config.memSize ∧ t = s.setMem (s.mem.store a b) := by
  unfold State.memWrite at h
  split at h
  · next ha => exact ⟨ha, (Except.ok.inj h).symm⟩
  · cases h

/-- A write to an address that exists succeeds. -/
theorem State.memWrite_of_lt {a : Nat} {b : Byte} (h : a < Config.memSize) :
    s.memWrite a b = .ok (s.setMem (s.mem.store a b)) := if_pos h

/-- The check of a block: it succeeds for no bytes, or when the highest address exists. -/
theorem State.checkBlock_ok_iff {count : Nat} :
    s.checkBlock count = .ok () ↔ count = 0 ∨ s.i.toNat + (count - 1) < Config.memSize := by
  unfold State.checkBlock effective
  split <;> simp_all

/-- The check of a block that fails names its highest address (R119). -/
theorem State.checkBlock_error {count : Nat} {f : Fault} (h : s.checkBlock count = .error f) :
    count ≠ 0 ∧ Config.memSize ≤ s.i.toNat + (count - 1) ∧ f = .memOutOfRange (s.i.toNat + (count - 1)) := by
  unfold State.checkBlock effective at h
  split at h
  · cases h
  · next hc =>
    push Not at hc
    exact ⟨hc.1, hc.2, (Except.error.inj h).symm⟩

/-- Reading a block that exists gives its bytes in order. -/
theorem State.readBytes_of_le {a count : Nat} (h : a + count ≤ Config.memSize) :
    s.readBytes a count = .ok ((List.range count).map fun k => s.mem.lookup (a + k)) := by
  induction count generalizing a with
  | zero => rfl
  | succ n ih =>
    rw [State.readBytes, State.memRead_of_lt (by omega)]
    simp only
    rw [ih (by omega), List.range_succ_eq_map]
    simp [Function.comp_def, Nat.add_assoc, Nat.add_comm 1]

/-- The memory after bytes are stored from `a` up. -/
def Memory.storeAll : Memory → Nat → List Byte → Memory
  | m, _, [] => m
  | m, a, b :: bs => (m.store a b).storeAll (a + 1) bs

/-- Writing a block that exists stores its bytes and changes nothing else. -/
theorem State.writeBytes_of_le {a : Nat} {bs : List Byte} (h : a + bs.length ≤ Config.memSize) :
    s.writeBytes a bs = .ok (s.setMem (s.mem.storeAll a bs)) := by
  induction bs generalizing a s with
  | nil => rfl
  | cons b bs ih =>
    rw [List.length_cons] at h
    rw [State.writeBytes, State.memWrite_of_lt (by omega)]
    exact ih (by omega)

/-- Writing a block that does not fit faults. -/
theorem State.writeBytes_ok_length {a : Nat} {bs : List Byte} (h : s.writeBytes a bs = .ok t) (hne : bs ≠ []) :
    a + bs.length ≤ Config.memSize := by
  induction bs generalizing a s with
  | nil => exact absurd rfl hne
  | cons b bs ih =>
    rw [State.writeBytes] at h
    split at h
    · cases h
    · next u hu =>
      have ha := (State.memWrite_ok hu).1
      cases bs with
      | nil => simpa using ha
      | cons c cs =>
        have := ih h (by simp)
        simp only [List.length_cons] at this ⊢
        omega

/-- Storing a block keeps the canonical form. -/
theorem Memory.wf_storeAll {m : Memory} {a : Nat} {bs : List Byte} (h : m.wf = true)
    (hlen : a + bs.length ≤ Config.memSize) : (m.storeAll a bs).wf = true := by
  induction bs generalizing m a with
  | nil => exact h
  | cons b bs ih =>
    rw [List.length_cons] at hlen
    exact ih (Memory.wf_store (by omega) h) (by omega)

/-- A read after a block is stored: the block's byte inside it, and what was there outside. -/
theorem Memory.lookup_storeAll {m : Memory} {a c : Nat} {bs : List Byte} (h : m.wf = true)
    (hlen : a + bs.length ≤ Config.memSize) :
    (m.storeAll a bs).lookup c = if a ≤ c then bs.getD (c - a) (m.lookup c) else m.lookup c := by
  induction bs generalizing m a with
  | nil => simp [Memory.storeAll]
  | cons b bs ih =>
    rw [List.length_cons] at hlen
    rw [Memory.storeAll, ih (Memory.wf_store (by omega) h) (by omega), Memory.lookup_store h]
    rcases Nat.lt_trichotomy c a with hc | hc | hc
    · rw [if_neg (show c ≠ a by omega), if_neg (show ¬ a + 1 ≤ c by omega), if_neg (show ¬ a ≤ c by omega)]
    · subst hc; simp
    · rw [if_neg (show c ≠ a by omega), if_pos (show a + 1 ≤ c by omega), if_pos (show a ≤ c by omega)]
      obtain ⟨k, rfl⟩ : ∃ k, c = a + 1 + k := ⟨c - (a + 1), by omega⟩
      rw [show a + 1 + k - (a + 1) = k by omega, show a + 1 + k - a = k + 1 by omega, List.getD_cons_succ]

/-- What a load of registers leaves alone, whatever state it starts from. -/
theorem State.loadEach_ok {u : State} {rs : List Reg} (h : s.loadEach rs = .ok u) :
    (∀ r ∈ rs, s.i.toNat + r.val < Config.memSize) ∧
    (∀ q, u.getV q = if q ∈ rs then s.mem.lookup (s.i.toNat + q.val) else s.getV q) ∧
    u = { s with v := u.v } := by
  induction rs generalizing s with
  | nil => cases h; simp
  | cons r rs ih =>
    rw [State.loadEach] at h
    split at h
    · cases h
    · next b hb =>
      obtain ⟨hr, rfl⟩ := State.memRead_ok hb
      obtain ⟨h1, h2, h3⟩ := ih h
      refine ⟨?_, ?_, h3⟩
      · intro q hq
        rcases List.mem_cons.1 hq with rfl | hq
        · exact hr
        · exact h1 q hq
      · intro q
        rw [h2 q]
        by_cases hq : q ∈ rs
        · simp [hq]
        · by_cases hqr : q = r
          · subst hqr; simp [hq, effective]
          · simp [hq, hqr, State.getV_setV_other]

/-- A load of registers whose addresses all exist succeeds. -/
theorem State.loadEach_of_lt {rs : List Reg} (h : ∀ r ∈ rs, s.i.toNat + r.val < Config.memSize) :
    ∃ u, s.loadEach rs = .ok u := by
  induction rs generalizing s with
  | nil => exact ⟨s, rfl⟩
  | cons r rs ih =>
    rw [State.loadEach, effective, State.memRead_of_lt (h r (by simp))]
    exact ih fun q hq => h q (by simp [hq])

/-- The registers of a block transfer are those up to `x`. -/
theorem mem_regsUpTo {x q : Reg} : q ∈ regsUpTo x ↔ q ≤ x := by
  simp [regsUpTo]

/-- A block transfer moves `x + 1` registers. -/
theorem length_regsUpTo (x : Reg) : (regsUpTo x).length = x.val + 1 := by
  revert x; decide

/-- They stand in ascending order. -/
theorem getElem?_regsUpTo (x q : Reg) (h : q ≤ x) : (regsUpTo x)[q.val]? = some q := by
  revert x q; decide

/-! ### The stack -/

/-- A push with room stores `pc` and counts it (R101). -/
theorem State.pushPc_of_lt (h : s.sp.val < 16) :
    s.pushPc = .ok (s.setStack (s.stack.set s.sp.val s.pc) ⟨s.sp.val + 1, Nat.succ_lt_succ h⟩) := dif_pos h

/-- A push onto a full stack faults (R101). -/
theorem State.pushPc_full (h : s.sp.val = 16) : s.pushPc = .error (.stackOverflow s.pc) := by
  unfold State.pushPc
  rw [dif_neg]
  simp [h]

/-- A pop of an empty stack faults (R102). -/
theorem State.popPc_empty (h : s.sp.val = 0) : s.popPc = .error (.stackUnderflow s.pc) := by
  unfold State.popPc
  split
  · rfl
  · next heq => simp [heq] at h

/-- A pop takes the last live entry into `pc` and keeps the array (R102). -/
theorem State.popPc_of_pos {k : Nat} (hk : k < 16) (h : s.sp.val = k + 1) :
    s.popPc = .ok ((s.setStack s.stack ⟨k, Nat.lt_succ_of_lt hk⟩).setPc s.stack[k]) := by
  unfold State.popPc
  split
  · next heq => simp [heq] at h
  · next k' hk' heq =>
    have : k' = k := by
      have := congrArg Fin.val heq
      simp only at this
      omega
    subst this
    rfl

/-! ### Inputs -/

/-- A key index read from a register (R146). -/
theorem State.keyHeld_of_lt {k : Byte} (h : k.toNat < 16) : s.keyHeld k = .ok s.key[k.toNat] := dif_pos h

/-- A key index above 15 names no key (R146). -/
theorem State.keyHeld_of_ge {k : Byte} (h : 16 ≤ k.toNat) : s.keyHeld k = .error (.keyIndexOutOfRange k) :=
  dif_neg (Nat.not_lt.2 h)

/-- The lowest held key is held, and none below it is (R148). -/
theorem lowestKey_some {keys : Keys} {k : Reg} (h : lowestKey keys = some k) :
    keys[k.val] = true ∧ ∀ j : Reg, j < k → keys[j.val] = false := by
  unfold lowestKey at h
  rw [List.find?_eq_some_iff_append] at h
  obtain ⟨hk, as, bs, heq, has⟩ := h
  refine ⟨hk, fun j hj => ?_⟩
  have hsorted : (as ++ k :: bs).Pairwise (· < ·) := heq ▸ (List.pairwise_lt_finRange 16)
  have hmem : j ∈ as ++ k :: bs := heq ▸ List.mem_finRange j
  rcases List.mem_append.1 hmem with hj' | hj'
  · simpa using has j hj'
  · rw [List.pairwise_append] at hsorted
    rcases List.mem_cons.1 hj' with rfl | hj''
    · exact absurd hj (lt_irrefl _)
    · exact absurd hj (not_lt.2 (le_of_lt ((List.pairwise_cons.1 hsorted.2.1).1 j hj'')))

/-- There is no lowest held key exactly when no key is held (R148). -/
theorem lowestKey_none {keys : Keys} : lowestKey keys = none ↔ ∀ k : Reg, keys[k.val] = false := by
  simp [lowestKey]

/-! ### The cycle's parts -/

/-- The fetch succeeds exactly where both bytes exist, high byte first (R54, R91). -/
theorem State.fetch_of_lt (h : s.pc.toNat + 1 < Config.memSize) :
    s.fetch = .ok (s.mem.lookup s.pc.toNat ++ s.mem.lookup (s.pc.toNat + 1)) := by
  unfold State.fetch
  rw [State.memRead_of_lt (by omega), State.memRead_of_lt h]

/-- A fetch at 0xFFF or above faults at the first byte that does not exist (R91). -/
theorem State.fetch_of_ge (h : Config.memSize ≤ s.pc.toNat + 1) :
    s.fetch = .error (.memOutOfRange (max s.pc.toNat Config.memSize)) := by
  unfold State.fetch
  by_cases hp : s.pc.toNat < Config.memSize
  · have hm : max s.pc.toNat Config.memSize = s.pc.toNat + 1 := by omega
    rw [State.memRead_of_lt hp, State.memRead_of_ge h, hm]
  · have hm : max s.pc.toNat Config.memSize = s.pc.toNat := by omega
    rw [State.memRead_of_ge (Nat.not_lt.1 hp), hm]

/-- A timer's step in numbers: one down, floored at zero (R94). -/
theorem toNat_countDown (b : Byte) : (countDown b).toNat = b.toNat - 1 := by
  revert b; decide

/-- The timers' step follows a next state only. -/
theorem thenTick_next_iff {r : Result} : thenTick r = .next t ↔ ∃ u, r = .next u ∧ t = u.tick := by
  cases r <;> simp [thenTick, eq_comm]

/-- The timers' step passes a fault on. -/
theorem thenTick_fault_iff {r : Result} {f : Fault} : thenTick r = .fault f ↔ r = .fault f := by
  cases r <;> simp [thenTick]

/-- `orRaise` answers a next state exactly where the operation succeeded. -/
theorem orRaise_next_iff {e : Except Fault State} : orRaise e = .next t ↔ e = .ok t := by
  cases e <;> simp [orRaise, raise]

/-- `orRaise` faults exactly where the operation did. -/
theorem orRaise_fault_iff {e : Except Fault State} {f : Fault} : orRaise e = .fault f ↔ e = .error f := by
  cases e <;> simp [orRaise, raise]

/-- `orRaise` never refuses. -/
theorem orRaise_not_refused {e : Except Fault State} {r : Refusal} : orRaise e ≠ .refused r := by
  cases e <;> simp [orRaise, raise]

end Sys2Proof.Machine
end

