-- ==== Sys2Proof/Laws/Sprite.lean ====
section
/-! SUPPORT. What the sprite engine's operations can do: where a pixel goes, which pixels a sprite has, and what a draw
leaves in the buffer. -/

namespace Sys2Proof.Machine

variable {cells : Nat}

/-- A cell of the buffer is placed exactly at its own index. -/
theorem placeAt_eq_cell {idx : Nat} {k : Fin cells} : placeAt cells idx = .cell k ↔ idx = k.val := by
  unfold placeAt
  split
  · next h => simp [Fin.ext_iff]
  · next h => simp; omega

/-- An index past the buffer is reported as it is. -/
theorem placeAt_eq_outside {idx j : Nat} : placeAt cells idx = .outside j ↔ idx = j ∧ cells ≤ idx := by
  unfold placeAt
  split
  · simp; omega
  · simp; omega

/-- Placing by index never clips. -/
theorem placeAt_ne_clipped {idx : Nat} : placeAt cells idx ≠ .clipped := by
  unfold placeAt
  split <;> simp

/-- Where the readings draw alike: a pixel within the screen goes to its own cell (R139, U6). -/
theorem place_inside {edge : DrawEdge} {w h x0 y0 r c : Nat} (hx : x0 + c < w) (hy : y0 + r < h) :
    place edge w h x0 y0 r c = placeAt (w * h) ((y0 + r) * w + x0 + c) := by
  cases edge <;> simp [place, Nat.mod_eq_of_lt hy, Nat.not_le.2 hx, Nat.not_le.2 hy]

/-- The set columns of a sprite row (R136). -/
theorem mem_rowPixels {b : Byte} {c : Nat} : c ∈ rowPixels b ↔ c < 8 ∧ b.getLsbD (7 - c) = true := by
  simp [rowPixels]

/-- The set pixels of a sprite (R136, R138). -/
theorem mem_spritePixels {r0 r c : Nat} {rows : List Byte} :
    (r, c) ∈ spritePixels r0 rows ↔ r0 ≤ r ∧ ∃ b, rows[r - r0]? = some b ∧ c ∈ rowPixels b := by
  induction rows generalizing r0 with
  | nil => simp [spritePixels]
  | cons b bs ih =>
    rw [spritePixels, List.mem_append, ih]
    constructor
    · rintro (h | ⟨hr, b', hb', hc⟩)
      · obtain ⟨c', hc', heq⟩ := List.mem_map.1 h
        cases heq
        exact ⟨le_refl _, b, by simp, hc'⟩
      · refine ⟨by omega, b', ?_, hc⟩
        rw [show r - r0 = r - (r0 + 1) + 1 by omega]
        simpa using hb'
    · rintro ⟨hr, b', hb', hc⟩
      rcases Nat.eq_or_lt_of_le hr with rfl | hlt
      · left
        simp only [Nat.sub_self, List.getElem?_cons_zero, Option.some.injEq] at hb'
        subst hb'
        exact List.mem_map.2 ⟨c, hc, rfl⟩
      · right
        refine ⟨hlt, b', ?_, hc⟩
        rw [show r - r0 = r - (r0 + 1) + 1 by omega] at hb'
        simpa using hb'

/-- The pixels of a sprite are listed row by row, left to right, none twice (R138). -/
theorem sorted_spritePixels (r0 : Nat) (rows : List Byte) :
    (spritePixels r0 rows).Pairwise fun p q => p.1 < q.1 ∨ p.1 = q.1 ∧ p.2 < q.2 := by
  induction rows generalizing r0 with
  | nil => simp [spritePixels]
  | cons b bs ih =>
    rw [spritePixels, List.pairwise_append]
    refine ⟨?_, ih _, ?_⟩
    · rw [List.pairwise_map]
      refine (List.pairwise_lt_range.filter _).imp ?_
      intro c c' h
      exact Or.inr ⟨rfl, h⟩
    · rintro ⟨r, c⟩ h ⟨r', c'⟩ h'
      obtain ⟨c'', -, heq⟩ := List.mem_map.1 h
      cases heq
      exact Or.inl (mem_spritePixels.1 h').1

/-- A draw succeeds exactly when no set pixel is past the buffer. -/
theorem drawPixels_ok_iff {edge : DrawEdge} {w h x0 y0 : Nat} {cv : Canvas (w * h)} {ps : List (Nat × Nat)} :
    (∃ cv', drawPixels edge w h x0 y0 cv ps = .ok cv') ↔
      ∀ p ∈ ps, ∀ idx, place edge w h x0 y0 p.1 p.2 ≠ .outside idx := by
  induction ps generalizing cv with
  | nil => simp [drawPixels]
  | cons p ps ih =>
    obtain ⟨r, c⟩ := p
    rw [drawPixels]
    cases hp : place edge w h x0 y0 r c with
    | cell k => simp [drawPixel, ih, hp]
    | clipped => simp [drawPixel, ih, hp]
    | outside idx =>
      simp only [drawPixel, reduceCtorEq, exists_false, false_iff, not_forall]
      exact ⟨(r, c), by simp, idx, by simp [hp]⟩

/-- A draw that fails reports the first set pixel, in drawing order, that is past the buffer (R139 (c)). -/
theorem drawPixels_error {edge : DrawEdge} {w h x0 y0 : Nat} {cv : Canvas (w * h)} {ps : List (Nat × Nat)} {f : Fault}
    (hf : drawPixels edge w h x0 y0 cv ps = .error f) :
    ∃ before r c after idx, ps = before ++ (r, c) :: after ∧ place edge w h x0 y0 r c = .outside idx ∧
      f = .videoOutOfRange idx ∧ ∀ p ∈ before, ∀ j, place edge w h x0 y0 p.1 p.2 ≠ .outside j := by
  induction ps generalizing cv with
  | nil => cases hf
  | cons p ps ih =>
    obtain ⟨r, c⟩ := p
    rw [drawPixels] at hf
    cases hp : place edge w h x0 y0 r c with
    | outside idx =>
      rw [hp] at hf
      exact ⟨[], r, c, ps, idx, rfl, hp, (Except.error.inj hf).symm, by simp⟩
    | cell k =>
      rw [hp] at hf
      obtain ⟨before, r', c', after, idx, rfl, h1, h2, h3⟩ := ih hf
      refine ⟨(r, c) :: before, r', c', after, idx, rfl, h1, h2, ?_⟩
      simpa [hp] using h3
    | clipped =>
      rw [hp] at hf
      obtain ⟨before, r', c', after, idx, rfl, h1, h2, h3⟩ := ih hf
      refine ⟨(r, c) :: before, r', c', after, idx, rfl, h1, h2, ?_⟩
      simpa [hp] using h3

/-- What a draw leaves, when no two of its pixels share a cell: each cell is turned over where a pixel landed, and the
collision says whether some pixel landed on a cell that was on (R138, R140). -/
theorem drawPixels_ok {edge : DrawEdge} {w h x0 y0 : Nat} {cv cv' : Canvas (w * h)} {ps : List (Nat × Nat)}
    (hok : drawPixels edge w h x0 y0 cv ps = .ok cv')
    (hdis : ps.Pairwise fun p q => ∀ k : Fin (w * h),
      place edge w h x0 y0 p.1 p.2 = .cell k → place edge w h x0 y0 q.1 q.2 ≠ .cell k) :
    (∀ k : Fin (w * h), cv'.video.getLsbD k.val =
      (cv.video.getLsbD k.val ^^ decide (∃ p ∈ ps, place edge w h x0 y0 p.1 p.2 = .cell k))) ∧
    (cv'.hit = true ↔ cv.hit = true ∨
      ∃ p ∈ ps, ∃ k : Fin (w * h), place edge w h x0 y0 p.1 p.2 = .cell k ∧ cv.video.getLsbD k.val = true) := by
  induction ps generalizing cv with
  | nil => cases hok; simp
  | cons p ps ih =>
    obtain ⟨r, c⟩ := p
    rw [List.pairwise_cons] at hdis
    rw [drawPixels] at hok
    cases hp : place edge w h x0 y0 r c with
    | outside idx => rw [hp] at hok; cases hok
    | clipped =>
      rw [hp] at hok
      obtain ⟨h1, h2⟩ := ih hok hdis.2
      exact ⟨fun k => by rw [h1 k]; simp [hp], by rw [h2]; simp [hp]⟩
    | cell j =>
      rw [hp] at hok
      obtain ⟨h1, h2⟩ := ih hok hdis.2
      have hfree : ∀ q ∈ ps, place edge w h x0 y0 q.1 q.2 ≠ .cell j := fun q hq => hdis.1 q hq j hp
      constructor
      · intro k
        rw [h1 k]
        simp only [List.mem_cons, exists_eq_or_imp, hp, BitVec.getLsbD_xor]
        by_cases hkj : j = k
        · subst hkj
          have hno : ¬ ∃ q ∈ ps, place edge w h x0 y0 q.1 q.2 = .cell j := fun ⟨q, hq, hqk⟩ => hfree q hq hqk
          simp [hno, j.isLt]
        · have hkj' : ¬ k.val = j.val := fun e => hkj (Fin.ext e.symm)
          simp [hkj, hkj']
      · rw [h2]
        simp only [List.mem_cons, exists_eq_or_imp, hp, Placement.cell.injEq, exists_eq_left', Bool.or_eq_true]
        have hsame : (∃ p ∈ ps, ∃ k : Fin (w * h), place edge w h x0 y0 p.1 p.2 = .cell k ∧
              (cv.video ^^^ BitVec.twoPow (w * h) j.val).getLsbD k.val = true) ↔
            ∃ p ∈ ps, ∃ k : Fin (w * h), place edge w h x0 y0 p.1 p.2 = .cell k ∧ cv.video.getLsbD k.val = true := by
          refine exists_congr fun q => and_congr_right fun hq => exists_congr fun k => and_congr_right fun hqk => ?_
          have hkj : ¬ k.val = j.val := fun e => hfree q hq (by rw [hqk, Fin.ext e])
          simp [hkj]
        rw [hsame, or_assoc]

end Sys2Proof.Machine
end

