-- ==== Sys2Proof/Laws/Exec.lean ====
section
/-! SUPPORT. The meanings that can fault, each said once: what it answers where it completes and where it does not. -/

namespace Sys2Proof.Machine

variable {s t : State}

/-- A call with room (R101). -/
theorem exec_call_of_lt {nnn : BitVec 12} (h : s.sp.val < 16) : exec (.call nnn) s =
    .next ((s.setStack (s.stack.set s.sp.val s.pc) ⟨s.sp.val + 1, Nat.succ_lt_succ h⟩).setPc (addressOf nnn)) := by
  simp only [exec, execCall]
  rw [State.pushPc_of_lt h]

/-- A call on a full stack (R101). -/
theorem exec_call_full {nnn : BitVec 12} (h : s.sp.val = 16) : exec (.call nnn) s = .fault (.stackOverflow s.pc) := by
  simp only [exec, execCall]
  rw [State.pushPc_full h]
  rfl

/-- A return from a live entry (R102). -/
theorem exec_ret_of_pos {k : Nat} (hk : k < 16) (h : s.sp.val = k + 1) : exec .ret s =
    .next ((s.setStack s.stack ⟨k, Nat.lt_succ_of_lt hk⟩).setPc s.stack[k]) := by
  simp only [exec, execRet]
  rw [State.popPc_of_pos hk h]
  rfl

/-- A return on an empty stack (R102). -/
theorem exec_ret_empty (h : s.sp.val = 0) : exec .ret s = .fault (.stackUnderflow s.pc) := by
  simp only [exec, execRet]
  rw [State.popPc_empty h]
  rfl

/-- A block store that fits (R117). -/
theorem exec_storeRegs_of_lt {x : Reg} (h : s.i.toNat + x.val < Config.memSize) : exec (.storeRegs x) s =
    .next (s.setMem (s.mem.storeAll s.i.toNat ((regsUpTo x).map s.getV))) := by
  simp only [exec, execStoreRegs]
  rw [State.checkBlock_ok_iff.2 (Or.inr (by omega))]
  simp only [effective, Nat.add_zero]
  rw [State.writeBytes_of_le (by simp only [List.length_map, length_regsUpTo]; omega)]
  rfl

/-- A block store that does not fit (R117, R119). -/
theorem exec_storeRegs_of_ge {x : Reg} (h : Config.memSize ≤ s.i.toNat + x.val) :
    exec (.storeRegs x) s = .fault (.memOutOfRange (s.i.toNat + x.val)) := by
  simp only [exec, execStoreRegs]
  cases hc : s.checkBlock (x.val + 1) with
  | error f => obtain ⟨-, -, rfl⟩ := State.checkBlock_error hc; rfl
  | ok u => cases u; rw [State.checkBlock_ok_iff] at hc; omega

/-- A block load that fits (R118). -/
theorem exec_loadRegs_of_lt {x : Reg} (h : s.i.toNat + x.val < Config.memSize) :
    ∃ u, exec (.loadRegs x) s = .next u ∧ u = { s with v := u.v } ∧
      ∀ q, u.getV q = if q ≤ x then s.mem.lookup (s.i.toNat + q.val) else s.getV q := by
  simp only [exec, execLoadRegs]
  rw [State.checkBlock_ok_iff.2 (Or.inr (by omega))]
  obtain ⟨u, hu⟩ := State.loadEach_of_lt (s := s) (rs := regsUpTo x) fun r hr => by
    have := Fin.le_def.1 (mem_regsUpTo.1 hr)
    omega
  obtain ⟨-, h2, h3⟩ := State.loadEach_ok hu
  refine ⟨u, by simp only [hu]; rfl, h3, fun q => ?_⟩
  rw [h2 q]
  simp [mem_regsUpTo]

/-- A block load that does not fit (R118, R119). -/
theorem exec_loadRegs_of_ge {x : Reg} (h : Config.memSize ≤ s.i.toNat + x.val) :
    exec (.loadRegs x) s = .fault (.memOutOfRange (s.i.toNat + x.val)) := by
  simp only [exec, execLoadRegs]
  cases hc : s.checkBlock (x.val + 1) with
  | error f => obtain ⟨-, -, rfl⟩ := State.checkBlock_error hc; rfl
  | ok u => cases u; rw [State.checkBlock_ok_iff] at hc; omega

/-- A decimal store that fits (R132). -/
theorem exec_ldBcd_of_lt {x : Reg} (h : s.i.toNat + 2 < Config.memSize) : exec (.ldBcd x) s =
    .next (s.setMem (s.mem.storeAll s.i.toNat (bcdDigits (s.getV x)))) := by
  simp only [exec, execLdBcd]
  rw [State.checkBlock_ok_iff.2 (Or.inr (by omega))]
  simp only [effective, Nat.add_zero]
  rw [State.writeBytes_of_le (by simp [bcdDigits]; omega)]
  rfl

/-- A decimal store that does not fit (R132, R119). -/
theorem exec_ldBcd_of_ge {x : Reg} (h : Config.memSize ≤ s.i.toNat + 2) :
    exec (.ldBcd x) s = .fault (.memOutOfRange (s.i.toNat + 2)) := by
  simp only [exec, execLdBcd]
  cases hc : s.checkBlock 3 with
  | error f => obtain ⟨-, -, rfl⟩ := State.checkBlock_error hc; rfl
  | ok u => cases u; rw [State.checkBlock_ok_iff] at hc; omega

/-- The rows of a sprite at `I` (R136). -/
def State.spriteRows (s : State) (n : Nat) : List Byte := (List.range n).map fun k => s.mem.lookup (s.i.toNat + k)

/-- The set pixels of the sprite at `I` (R136). -/
theorem State.mem_spritePixels {n r c : Nat} : (r, c) ∈ spritePixels 0 (s.spriteRows n) ↔
    r < n ∧ c < 8 ∧ (s.mem.lookup (s.i.toNat + r)).getLsbD (7 - c) = true := by
  rw [Sys2Proof.Machine.mem_spritePixels]
  by_cases hr : r < n
  · simp [State.spriteRows, mem_rowPixels, hr]
  · simp [State.spriteRows, hr]

/-- A draw whose rows exist is the sprite engine on those rows (R138). -/
theorem exec_drw_of_lt {x y : Reg} {n : BitVec 4} (h : n.toNat = 0 ∨ s.i.toNat + (n.toNat - 1) < Config.memSize) :
    exec (.drw x y n) s =
      match drawSprite Config.drawEdge Config.videoWidth Config.videoHeight (s.getV x) (s.getV y)
        (s.spriteRows n.toNat) s.video with
      | .error f => .fault f
      | .ok cv => .next (s.finishDraw cv) := by
  simp only [exec, execDrw]
  rw [State.checkBlock_ok_iff.2 h]
  have hrows : s.readBytes (effective s.i 0) n.toNat = .ok (s.spriteRows n.toNat) := by
    rcases Nat.eq_zero_or_pos n.toNat with h0 | h0
    · rw [h0]; rfl
    · exact State.readBytes_of_le (by simp only [effective]; omega)
  rw [hrows]
  rfl

/-- A draw whose rows do not exist (R138, R119). -/
theorem exec_drw_of_ge {x y : Reg} {n : BitVec 4} (h0 : 0 < n.toNat) (h : Config.memSize ≤ s.i.toNat + (n.toNat - 1)) :
    exec (.drw x y n) s = .fault (.memOutOfRange (s.i.toNat + (n.toNat - 1))) := by
  simp only [exec, execDrw]
  cases hc : s.checkBlock n.toNat with
  | error f => obtain ⟨-, -, rfl⟩ := State.checkBlock_error hc; rfl
  | ok u => cases u; rw [State.checkBlock_ok_iff] at hc; omega

/-- A draw that completes had its rows in memory and left a canvas (R138). -/
theorem exec_drw_next {x y : Reg} {n : BitVec 4} (h : exec (.drw x y n) s = .next t) :
    (n.toNat = 0 ∨ s.i.toNat + (n.toNat - 1) < Config.memSize) ∧
    ∃ cv, drawSprite Config.drawEdge Config.videoWidth Config.videoHeight (s.getV x) (s.getV y)
      (s.spriteRows n.toNat) s.video = .ok cv ∧ t = s.finishDraw cv := by
  by_cases hc : n.toNat = 0 ∨ s.i.toNat + (n.toNat - 1) < Config.memSize
  · refine ⟨hc, ?_⟩
    rw [exec_drw_of_lt hc] at h
    split at h
    · cases h
    · next cv hcv => exact ⟨cv, hcv, (Host.Outcome.next.inj h).symm⟩
  · push Not at hc
    rw [exec_drw_of_ge (Nat.pos_of_ne_zero hc.1) hc.2] at h
    cases h

/-- `SKP` on a key that exists (R146). -/
theorem exec_skp_of_lt {x : Reg} (h : (s.getV x).toNat < 16) :
    exec (.skp x) s = .next (s.skipIf s.key[(s.getV x).toNat]) := by
  simp only [exec, execSkp]
  rw [State.keyHeld_of_lt h]

/-- `SKP` on an index that names no key (R146). -/
theorem exec_skp_of_ge {x : Reg} (h : 16 ≤ (s.getV x).toNat) :
    exec (.skp x) s = .fault (.keyIndexOutOfRange (s.getV x)) := by
  simp only [exec, execSkp]
  rw [State.keyHeld_of_ge h]
  rfl

/-- `SKNP` on a key that exists (R147). -/
theorem exec_sknp_of_lt {x : Reg} (h : (s.getV x).toNat < 16) :
    exec (.sknp x) s = .next (s.skipIf (!s.key[(s.getV x).toNat])) := by
  simp only [exec, execSknp]
  rw [State.keyHeld_of_lt h]

/-- `SKNP` on an index that names no key (R147). -/
theorem exec_sknp_of_ge {x : Reg} (h : 16 ≤ (s.getV x).toNat) :
    exec (.sknp x) s = .fault (.keyIndexOutOfRange (s.getV x)) := by
  simp only [exec, execSknp]
  rw [State.keyHeld_of_ge h]
  rfl

/-- The key wait: the lowest held key into `V[x]`, or the program counter back (R148). -/
theorem exec_ldKey (x : Reg) : exec (.ldKey x) s = .next s.rewind ∨
    ∃ k, lowestKey s.key = some k ∧ exec (.ldKey x) s = .next (s.setV x (BitVec.ofNat 8 k.val)) := by
  simp only [exec, execLdKey]
  cases h : lowestKey s.key with
  | none => exact Or.inl rfl
  | some k => exact Or.inr ⟨k, rfl, rfl⟩

/-! ### Inversions: what a completed run of a meaning that can fault was -/

/-- A completed call had room (R101). -/
theorem exec_call_next {nnn : BitVec 12} (h : exec (.call nnn) s = .next t) : ∃ hs : s.sp.val < 16,
    t = (s.setStack (s.stack.set s.sp.val s.pc) ⟨s.sp.val + 1, Nat.succ_lt_succ hs⟩).setPc (addressOf nnn) := by
  by_cases hs : s.sp.val < 16
  · rw [exec_call_of_lt hs] at h; cases h; exact ⟨hs, rfl⟩
  · rw [exec_call_full (by omega)] at h; cases h

/-- A completed return had an entry to pop (R102). -/
theorem exec_ret_next (h : exec .ret s = .next t) : ∃ k, ∃ hk : k < 16,
    s.sp.val = k + 1 ∧ t = (s.setStack s.stack ⟨k, Nat.lt_succ_of_lt hk⟩).setPc s.stack[k] := by
  rcases Nat.eq_zero_or_pos s.sp.val with h0 | h0
  · rw [exec_ret_empty h0] at h; cases h
  · have hk : s.sp.val - 1 < 16 := by omega
    rw [exec_ret_of_pos hk (by omega)] at h
    cases h
    exact ⟨_, hk, by omega, rfl⟩

/-- A completed block store stayed in memory (R117). -/
theorem exec_storeRegs_next {x : Reg} (h : exec (.storeRegs x) s = .next t) : s.i.toNat + x.val < Config.memSize ∧
    t = s.setMem (s.mem.storeAll s.i.toNat ((regsUpTo x).map s.getV)) := by
  by_cases hs : s.i.toNat + x.val < Config.memSize
  · rw [exec_storeRegs_of_lt hs] at h; cases h; exact ⟨hs, rfl⟩
  · rw [exec_storeRegs_of_ge (by omega)] at h; cases h

/-- A completed block load stayed in memory (R118). -/
theorem exec_loadRegs_next {x : Reg} (h : exec (.loadRegs x) s = .next t) : s.i.toNat + x.val < Config.memSize ∧
    t = { s with v := t.v } ∧ ∀ q, t.getV q = if q ≤ x then s.mem.lookup (s.i.toNat + q.val) else s.getV q := by
  by_cases hs : s.i.toNat + x.val < Config.memSize
  · obtain ⟨u, hu, heq, hq⟩ := exec_loadRegs_of_lt hs
    rw [hu] at h; cases h; exact ⟨hs, heq, hq⟩
  · rw [exec_loadRegs_of_ge (by omega)] at h; cases h

/-- A completed digit store stayed in memory (R132). -/
theorem exec_ldBcd_next {x : Reg} (h : exec (.ldBcd x) s = .next t) : s.i.toNat + 2 < Config.memSize ∧
    t = s.setMem (s.mem.storeAll s.i.toNat (bcdDigits (s.getV x))) := by
  by_cases hs : s.i.toNat + 2 < Config.memSize
  · rw [exec_ldBcd_of_lt hs] at h; cases h; exact ⟨hs, rfl⟩
  · rw [exec_ldBcd_of_ge (by omega)] at h; cases h

/-- A completed `SKP` named a key (R146). -/
theorem exec_skp_next {x : Reg} (h : exec (.skp x) s = .next t) :
    ∃ hk : (s.getV x).toNat < 16, t = s.skipIf s.key[(s.getV x).toNat] := by
  by_cases hk : (s.getV x).toNat < 16
  · rw [exec_skp_of_lt hk] at h; cases h; exact ⟨hk, rfl⟩
  · rw [exec_skp_of_ge (by omega)] at h; cases h

/-- A completed `SKNP` named a key (R147). -/
theorem exec_sknp_next {x : Reg} (h : exec (.sknp x) s = .next t) :
    ∃ hk : (s.getV x).toNat < 16, t = s.skipIf !s.key[(s.getV x).toNat] := by
  by_cases hk : (s.getV x).toNat < 16
  · rw [exec_sknp_of_lt hk] at h; cases h; exact ⟨hk, rfl⟩
  · rw [exec_sknp_of_ge (by omega)] at h; cases h

end Sys2Proof.Machine
end

