-- ==== Sys2Proof/Laws/PerInstr.lean ====
section
/-! SUPPORT. The per-instruction family `RowMatch`: the word of an instruction satisfies its own row of the opcode table
(spec 30_encoding.md R76, R83). -/

namespace Sys2Proof.Laws.RowMatch

/-- The instruction's encoding has the match of its row under the row's mask. -/
def Statement (i : Instr) : Prop := i.selectedBy (encode i)

/-- A word of format NNN under the family mask. -/
theorem encodeNNN_match (op : BitVec 4) (nnn : BitVec 12) :
    encodeNNN op nnn &&& 0xF000 = op ++ (0 : BitVec 12) := by
  rw [show (0xF000 : Word) = (0xF : BitVec 4) ++ (0 : BitVec 12) from rfl, encodeNNN, BitVec.and_append]
  congr 1
  · revert op; decide
  · simp

/-- A word of format XKK under the family mask. -/
theorem encodeXKK_match (op : BitVec 4) (x : Reg) (kk : Byte) :
    encodeXKK op x kk &&& 0xF000 = op ++ (0 : BitVec 4) ++ (0 : BitVec 8) := by
  rw [show (0xF000 : Word) = (0xF : BitVec 4) ++ (0 : BitVec 4) ++ (0 : BitVec 8) from rfl, encodeXKK,
    BitVec.and_append, BitVec.and_append]
  congr 1
  · congr 1
    · revert op; decide
    · simp
  · simp

/-- A word of format X under the mask of family and low byte. -/
theorem encodeXKK_matchByte (op : BitVec 4) (x : Reg) (kk : Byte) :
    encodeXKK op x kk &&& 0xF0FF = op ++ (0 : BitVec 4) ++ kk := by
  rw [show (0xF0FF : Word) = (0xF : BitVec 4) ++ (0 : BitVec 4) ++ (0xFF : BitVec 8) from rfl, encodeXKK,
    BitVec.and_append, BitVec.and_append]
  congr 1
  · congr 1
    · revert op; decide
    · simp
  · revert kk; decide

/-- A word of format X under the mask of family and low nibble. -/
theorem encodeXKK_matchNibble (op : BitVec 4) (x : Reg) (kk : Byte) :
    encodeXKK op x kk &&& 0xF00F = op ++ (0 : BitVec 4) ++ (kk &&& 0x0F) := by
  rw [show (0xF00F : Word) = (0xF : BitVec 4) ++ (0 : BitVec 4) ++ (0x0F : BitVec 8) from rfl, encodeXKK,
    BitVec.and_append, BitVec.and_append]
  congr 2
  · revert op; decide
  · simp

/-- A word of format XY or XYN under the family mask. -/
theorem encodeXYN_match (op : BitVec 4) (x y : Reg) (n : BitVec 4) :
    encodeXYN op x y n &&& 0xF000 = op ++ (0 : BitVec 4) ++ (0 : BitVec 4) ++ (0 : BitVec 4) := by
  rw [show (0xF000 : Word) = (0xF : BitVec 4) ++ (0 : BitVec 4) ++ (0 : BitVec 4) ++ (0 : BitVec 4) from rfl, encodeXYN,
    BitVec.and_append, BitVec.and_append, BitVec.and_append]
  congr 1
  · congr 1
    · congr 1
      · revert op; decide
      · simp
    · simp
  · simp

/-- A word of format XY under the mask of family and low nibble. -/
theorem encodeXYN_matchNibble (op : BitVec 4) (x y : Reg) (n : BitVec 4) :
    encodeXYN op x y n &&& 0xF00F = op ++ (0 : BitVec 4) ++ (0 : BitVec 4) ++ n := by
  rw [show (0xF00F : Word) = (0xF : BitVec 4) ++ (0 : BitVec 4) ++ (0 : BitVec 4) ++ (0xF : BitVec 4) from rfl, encodeXYN,
    BitVec.and_append, BitVec.and_append, BitVec.and_append]
  congr 1
  · congr 1
    · congr 1
      · revert op; decide
      · simp
    · simp
  · revert n; decide

theorem cls : Statement .cls := rfl
theorem ret : Statement .ret := rfl
theorem jp (nnn : BitVec 12) : Statement (.jp nnn) := encodeNNN_match _ _
theorem call (nnn : BitVec 12) : Statement (.call nnn) := encodeNNN_match _ _
theorem seImm (x : Reg) (kk : Byte) : Statement (.seImm x kk) := encodeXKK_match _ _ _
theorem sneImm (x : Reg) (kk : Byte) : Statement (.sneImm x kk) := encodeXKK_match _ _ _
theorem seReg (x : Reg) (y : Reg) : Statement (.seReg x y) := encodeXYN_match _ _ _ _
theorem ldImm (x : Reg) (kk : Byte) : Statement (.ldImm x kk) := encodeXKK_match _ _ _
theorem addImm (x : Reg) (kk : Byte) : Statement (.addImm x kk) := encodeXKK_match _ _ _
theorem ldReg (x : Reg) (y : Reg) : Statement (.ldReg x y) := encodeXYN_matchNibble _ _ _ _
theorem orReg (x : Reg) (y : Reg) : Statement (.orReg x y) := encodeXYN_matchNibble _ _ _ _
theorem andReg (x : Reg) (y : Reg) : Statement (.andReg x y) := encodeXYN_matchNibble _ _ _ _
theorem xorReg (x : Reg) (y : Reg) : Statement (.xorReg x y) := encodeXYN_matchNibble _ _ _ _
theorem addReg (x : Reg) (y : Reg) : Statement (.addReg x y) := encodeXYN_matchNibble _ _ _ _
theorem sub (x : Reg) (y : Reg) : Statement (.sub x y) := encodeXYN_matchNibble _ _ _ _
theorem shr (x : Reg) (y : Reg) : Statement (.shr x y) := encodeXYN_matchNibble _ _ _ _
theorem subn (x : Reg) (y : Reg) : Statement (.subn x y) := encodeXYN_matchNibble _ _ _ _
theorem shl (x : Reg) (y : Reg) : Statement (.shl x y) := encodeXYN_matchNibble _ _ _ _
theorem sneReg (x : Reg) (y : Reg) : Statement (.sneReg x y) := encodeXYN_match _ _ _ _
theorem ldI (nnn : BitVec 12) : Statement (.ldI nnn) := encodeNNN_match _ _
theorem jpV0 (nnn : BitVec 12) : Statement (.jpV0 nnn) := encodeNNN_match _ _
theorem rnd (x : Reg) (kk : Byte) : Statement (.rnd x kk) := encodeXKK_match _ _ _
theorem drw (x : Reg) (y : Reg) (n : BitVec 4) : Statement (.drw x y n) := encodeXYN_match _ _ _ _
theorem skp (x : Reg) : Statement (.skp x) := encodeXKK_matchNibble _ _ _
theorem sknp (x : Reg) : Statement (.sknp x) := encodeXKK_matchNibble _ _ _
theorem ldFromDT (x : Reg) : Statement (.ldFromDT x) := encodeXKK_matchByte _ _ _
theorem ldKey (x : Reg) : Statement (.ldKey x) := encodeXKK_matchByte _ _ _
theorem ldToDT (x : Reg) : Statement (.ldToDT x) := encodeXKK_matchByte _ _ _
theorem ldToST (x : Reg) : Statement (.ldToST x) := encodeXKK_matchByte _ _ _
theorem addI (x : Reg) : Statement (.addI x) := encodeXKK_matchByte _ _ _
theorem ldFont (x : Reg) : Statement (.ldFont x) := encodeXKK_matchByte _ _ _
theorem ldBcd (x : Reg) : Statement (.ldBcd x) := encodeXKK_matchByte _ _ _
theorem storeRegs (x : Reg) : Statement (.storeRegs x) := encodeXKK_matchByte _ _ _
theorem loadRegs (x : Reg) : Statement (.loadRegs x) := encodeXKK_matchByte _ _ _
theorem nop (w : Word) : Statement (.nop w) := by simp [Statement, Instr.selectedBy, Instr.matchMask]

end Sys2Proof.Laws.RowMatch
end

