-- ==== Sys2Proof/Laws/Step.lean ====
section
/-! SUPPORT. What a cycle can do, said once: every statement about a step goes through these. -/

namespace Sys2Proof.Machine

variable {s t : State}

/-- The machine's decoder is the table-keyed dispatch (D1). -/
theorem decode_eq (w : Word) : decode w = decodeTableKeyed w := rfl

/-- A cycle that gives a next state fetched a word, ran its instruction, and stepped the timers (R90). -/
theorem step_next_iff :
    step s = .next t ↔ ∃ w u, s.fetch = .ok w ∧ exec (decode w) (s.advance w) = .next u ∧ t = u.tick := by
  unfold step
  cases hf : s.fetch with
  | error f => simp [raise]
  | ok w => simp [thenTick_next_iff]

/-- A cycle faults in its fetch or in its instruction (R163). -/
theorem step_fault_iff {f : Fault} :
    step s = .fault f ↔ s.fetch = .error f ∨ ∃ w, s.fetch = .ok w ∧ exec (decode w) (s.advance w) = .fault f := by
  unfold step
  cases hf : s.fetch with
  | error g => simp [raise]
  | ok w => simp [thenTick_fault_iff]

/-- A cycle whose fetch succeeds is the instruction and the timers. -/
theorem step_of_fetch {w : Word} (h : s.fetch = .ok w) : step s = thenTick (exec (decode w) (s.advance w)) := by
  unfold step
  rw [h]

/-- The bytes of a word, put together again. -/
theorem append_wordBytes (w : Word) : w.extractLsb' 8 8 ++ w.extractLsb' 0 8 = w := by
  refine BitVec.eq_of_getLsbD_eq fun k hk => ?_
  rw [BitVec.getLsbD_append, BitVec.getLsbD_extractLsb', BitVec.getLsbD_extractLsb']
  split
  · next hk8 => simp [hk8]
  · next hk8 => simp [show k - 8 < 8 by omega, show 8 + (k - 8) = k by omega]

/-- A placed instruction is what the next fetch reads. -/
theorem State.fetch_withFetchWord {nbits w : Nat} (hwf : s.mem.wf = true) (h : s.pc.toNat + 1 < Config.memSize) :
    (s.withFetchWord nbits w).fetch = .ok (tableWord nbits w) := by
  have hle : s.pc.toNat + (wordBytes (tableWord nbits w)).length ≤ Config.memSize := by simp [wordBytes]; omega
  have hw : s.withFetchWord nbits w = s.setMem (s.mem.storeAll s.pc.toNat (wordBytes (tableWord nbits w))) := by
    unfold State.withFetchWord
    rw [State.writeBytes_of_le hle]
  rw [hw, State.fetch_of_lt (by simpa using h)]
  simp only [State.mem_setMem, State.pc_setMem]
  rw [Memory.lookup_storeAll hwf hle, Memory.lookup_storeAll hwf hle, if_pos (le_refl _), if_pos (by omega)]
  simp [wordBytes, append_wordBytes]

/-- The fetch looks at memory and the program counter only. -/
theorem State.fetch_congr (hm : t.mem = s.mem) (hp : t.pc = s.pc) : t.fetch = s.fetch := by
  simp only [State.fetch, State.memRead, hm, hp]

end Sys2Proof.Machine
end

