-- ==== Sys2Proof/Laws/Safety.lean ====
section
/-! SUPPORT. The small laws of the frame: keeping parts is reflexive, transitive and monotone, and equal fields keep a part;
and the laws of `mapNext` and `cycles`. -/

namespace Sys2Proof.Machine

variable {s t u : State}

/-- A state keeps every part of itself. -/
theorem Part.same_refl (s : State) (p : Part) : Part.same s s p := by
  cases p <;> first | rfl | exact fun _ => rfl

/-- What is kept twice is kept. -/
theorem Part.same_trans {p : Part} (h : Part.same s t p) (h' : Part.same t u p) : Part.same s u p := by
  cases p <;> first | exact Eq.trans h' h | exact fun a => (h' a).trans (h a)

/-- Equal memories read the same. -/
theorem Part.same_memory_of_eq (h : t.mem = s.mem) : Part.same s t .memory := fun a => by
  simp only [State.memRead, h]

/-- Equal register files hold the same. -/
theorem Part.same_registers_of_eq (h : t.v = s.v) : Part.same s t .registers := fun r => by
  simp only [State.getV, h]

/-- A state keeps all but anything of itself. -/
theorem keepsBut_refl (parts : List Part) (s : State) : KeepsBut parts s s := fun p _ => Part.same_refl s p

/-- What two moves keep, both together keep. -/
theorem keepsBut_trans {parts : List Part} (h : KeepsBut parts s t) (h' : KeepsBut parts t u) : KeepsBut parts s u :=
  fun p hp => Part.same_trans (h p hp) (h' p hp)

/-- A frame that lets less change is the stronger one. -/
theorem keepsBut_mono {parts parts' : List Part} (hsub : parts ⊆ parts') (h : KeepsBut parts s t) :
    KeepsBut parts' s t := fun p hp => h p (fun hm => hp (hsub hm))

/-- What an advance changes (R90, R92). -/
theorem keepsBut_advance (s : State) (w : Word) : KeepsBut [.counter, .word] s (s.advance w) := by
  intro p hp
  cases p <;> first | rfl | exact fun _ => rfl | exact absurd (by decide) hp

/-- What the timers' step changes (R94). -/
theorem keepsBut_tick (s : State) : KeepsBut [.delayTimer, .soundTimer] s s.tick := by
  intro p hp
  cases p <;> first | rfl | exact fun _ => rfl | exact absurd (by decide) hp

/-- What a skip changes (R108). -/
theorem keepsBut_skipIf (s : State) (c : Bool) : KeepsBut [.counter] s (s.skipIf c) := by
  intro p hp
  cases c <;> cases p <;> first | rfl | exact fun _ => rfl | exact absurd (by decide) hp

/-- `mapNext` acts on a next state. -/
@[simp] theorem mapNext_next (f : State → State) (s : State) : mapNext f (.next s) = .next (f s) := rfl

/-- `mapNext` passes a fault on. -/
@[simp] theorem mapNext_fault (f : State → State) (g : Fault) : mapNext f (.fault g) = .fault g := rfl

/-- One cycle and then the rest. -/
theorem cycles_succ_of_next {k : Nat} (h : step s = .next t) : cycles (k + 1) s = cycles k t := by
  simp only [cycles, h]

/-- A run of at least one cycle that ends in a state began with a cycle that did. -/
theorem cycles_succ_next {k : Nat} (h : cycles (k + 1) s = .next u) : ∃ t, step s = .next t ∧ cycles k t = .next u := by
  cases hs : step s with
  | next t => exact ⟨t, rfl, by simpa only [cycles, hs] using h⟩
  | fault f => simp [cycles, hs] at h
  | refused r => simp [cycles, hs] at h

/-- A draw that faults on the buffer does so at one of its own set pixels (R138, R139). -/
theorem exec_drw_fault {x y : Reg} {n : BitVec 4} {f : Fault} (h : exec (.drw x y n) s = .fault f)
    (hm : n.toNat = 0 ∨ s.i.toNat + (n.toNat - 1) < Config.memSize) :
    ∃ r c, r < n.toNat ∧ c < 8 ∧ s.spriteBit r c = true ∧
      Config.videoCells ≤ spriteIndex (s.getV x) (s.getV y) r c ∧
      f = .videoOutOfRange (spriteIndex (s.getV x) (s.getV y) r c) := by
  rw [exec_drw_of_lt hm] at h
  split at h
  · next g hg =>
    cases h
    obtain ⟨before, r, c, after, idx, hps, hpl, hf, -⟩ := drawPixels_error hg
    obtain ⟨hr, hc, hb⟩ := State.mem_spritePixels.1 (show (r, c) ∈ _ by rw [hps]; simp)
    obtain ⟨hidx, hge⟩ := placeAt_eq_outside.1 hpl
    exact ⟨r, c, hr, hc, hb, hge, by rw [hf, ← hidx]; rfl⟩
  · cases h

end Sys2Proof.Machine
end

