-- ==== Sys2Proof/Tests/Slice0.lean ====
section
/-! SUPPORT. Tests with results from spec/95_test_vectors.md, each named by the vector it comes from, and for every statement
with hypotheses a state and operands that meet them. -/

namespace Sys2Proof.Tests

open Sys2Proof Sys2Proof.Machine

/-! ### Helpers -/

/-- The next state of an answer. -/
def nextOf : Result → Option State
  | .next s => some s
  | .fault _ => none
  | .refused _ => none

/-- The fault of an answer. -/
def faultOf : Result → Option Fault
  | .next _ => none
  | .fault f => some f
  | .refused _ => none

/-- The state after reset with the given registers. -/
def withV (regs : List (Reg × Byte)) : State := regs.foldl (fun s p => s.setV p.1 p.2) State.reset

/-- Memory bytes put from an address up; unchanged where one does not exist. -/
def put (s : State) (a : Nat) (bs : List Byte) : State :=
  match s.writeBytes a bs with
  | .ok t => t
  | .error _ => s

/-- The stack pointer replaced. -/
def atDepth (s : State) (sp : Fin 17) : State := s.setStack s.stack sp

/-- The state with one key held. -/
def holding (s : State) (k : Fin 16) : State := s.setKeys (s.key.set k.val true)

/-- One cycle with the word at the program counter, seen through `f`. -/
def see {α : Type} (s : State) (w : Nat) (f : State → α) : Option α := (nextOf (step (s.withFetchWord 16 w))).map f

/-- The fault of one cycle with the word at the program counter. -/
def stops (s : State) (w : Nat) : Option Fault := faultOf (step (s.withFetchWord 16 w))

/-- `V1`, `VF` and `pc`. -/
def v1f (s : State) : Byte × Byte × Word := (s.getV 1, s.getV 15, s.pc)

/-- The cells that are on. -/
def cellsOn (s : State) : List Nat := (List.range 2048).filter (fun k => s.video.getLsbD k)

/-! ### Well-formedness: the one check refuses an ill-formed term (R79) -/

theorem test_ill_formed_nop : (Instr.nop 0x00E0).wellFormed = false := by decide
theorem test_ill_formed_nop_alias : (Instr.nop 0x5127).wellFormed = false := by decide
theorem test_well_formed_nop : (Instr.nop 0x8008).wellFormed = true := by decide

/-! ### Decoding: words written out from 30_encoding.md (R76) and 95 V-ENC -/

theorem test_decode_control_flow :
    [0x00E0, 0x00EE, 0x1ABC, 0x2ABC, 0x3133, 0x4134, 0x5120, 0x9120, 0xB300].map (decodeTableWord 16) =
    [some .cls, some .ret, some (.jp 0xABC), some (.call 0xABC), some (.seImm 1 0x33), some (.sneImm 1 0x34),
      some (.seReg 1 2), some (.sneReg 1 2), some (.jpV0 0x300)] := by decide

theorem test_decode_data_movement :
    [0x6FAB, 0x8120, 0xA123, 0xF307, 0xF115, 0xF118, 0xFA29, 0xF255, 0xF465].map (decodeTableWord 16) =
    [some (.ldImm 15 0xAB), some (.ldReg 1 2), some (.ldI 0x123), some (.ldFromDT 3), some (.ldToDT 1),
      some (.ldToST 1), some (.ldFont 10), some (.storeRegs 2), some (.loadRegs 4)] := by decide

theorem test_decode_arithmetic :
    [0x7003, 0x8121, 0x8122, 0x8123, 0x8124, 0x8125, 0x8126, 0x8127, 0x812E, 0xF41E].map (decodeTableWord 16) =
    [some (.addImm 0 3), some (.orReg 1 2), some (.andReg 1 2), some (.xorReg 1 2), some (.addReg 1 2),
      some (.sub 1 2), some (.shr 1 2), some (.subn 1 2), some (.shl 1 2), some (.addI 4)] := by decide

theorem test_decode_rest :
    [0xF433, 0xC30F, 0xD125, 0xE19E, 0xE1A1, 0xF30A, 0x812F].map (decodeTableWord 16) =
    [some (.ldBcd 4), some (.rnd 3 0x0F), some (.drw 1 2 5), some (.skp 1), some (.sknp 1), some (.ldKey 3),
      some (.nop 0x812F)] := by decide

theorem test_decode_aliases_vEnc :
    [0x0000, 0x00C0, 0x00FE, 0x5127, 0x9121, 0xE10E, 0xE1F1].map (decodeTableWord 16) =
    [some .cls, some .cls, some .ret, some (.seReg 1 2), some (.sneReg 1 2), some (.skp 1), some (.sknp 1)] := by decide

theorem test_decode_unmapped_vEnc :
    ([0x0001, 0x00FB, 0x00CF, 0x8008, 0x812F, 0xE000, 0xF000, 0xF030, 0xF075, 0xF085, 0xF1E5].all fun w =>
      decode w == .nop w && unmapped w) = true := by decide

theorem test_exact_reading : decodeIn .exact 0x5127 = .nop 0x5127 ∧ decodeIn .exact 0x5120 = .seReg 1 2 := by decide

theorem test_truncated : decodeBytes [0xF4] = .error (.truncated 1) ∧ decodeBytes [] = .error (.truncated 0) := by decide

/-! ### Memory -/

theorem test_reset_glyph_a : (List.range 6).map (fun k => State.reset.mem.lookup (0x082 + k)) =
    [0xF0, 0x90, 0xF0, 0x90, 0x90, 0xE0] := by decide
theorem test_store_keeps_form : Memory.store (Memory.store (Memory.store [] 0x300 1) 0x200 2) 0x250 3 =
    [(0x200, 2), (0x250, 3), (0x300, 1)] := by decide
theorem test_store_of_reset_value_removes : Memory.store (Memory.store [] 0x300 1) 0x300 0 = [] ∧
    Memory.store [] 0x050 0xF0 = [] := by decide
theorem test_ill_formed_memory : Memory.wf [(0x300, 1), (0x200, 2)] = false ∧ Memory.wf [(0x300, 0)] = false ∧
    Memory.wf [(0x1000, 1)] = false := by decide

/-! ### The cycle: V-FETCH, V-TMR, S3 -/

theorem test_fetch_high_byte_first : see State.reset 0x6A55 (fun t => (t.opcode, t.getV 10, t.pc)) =
    some (0x6A55, 0x55, 0x202) := by decide
theorem test_fetch_odd_pc : see (State.reset.setPc 0x201) 0x6A55 (fun t => (t.getV 10, t.pc)) =
    some (0x55, 0x203) := by decide
theorem test_fetch_at_top : see (State.reset.setPc 0xFFE) 0x6A55 (fun t => (t.getV 10, t.pc)) =
    some (0x55, 0x1000) := by decide
theorem test_fetch_past_top : faultOf (step (State.reset.setPc 0xFFF)) = some (.memOutOfRange 0x1000) ∧
    faultOf (step (State.reset.setPc 0x10FE)) = some (.memOutOfRange 0x10FE) := by decide
theorem test_nop_ticks : see ((State.reset.setDT 3).setST 1) 0x8008 (fun t => (t.dt, t.st, t.pc)) =
    some (2, 0, 0x202) := by decide
theorem test_nop_zero_timers : see State.reset 0xE000 (fun t => (t.dt, t.st)) = some (0, 0) := by decide
theorem test_scenario_s3 :
    (match State.reset.loadRom [0x00, 0xE0, 0x60, 0x05, 0x70, 0x03, 0x12, 0x00] with
      | .next s => (nextOf (cycles 4 s)).map (fun t => (t.getV 0, t.pc, t.video))
      | _ => none) = some (8, 0x200, 0) := by decide +kernel

/-! ### Control flow: V-CF -/

theorem test_jp : see State.reset 0x1ABC (fun t => t.pc) = some 0xABC := by decide
theorem test_call : see State.reset 0x2ABC (fun t => (t.stack[0], t.sp, t.pc)) = some (0x202, 1, 0xABC) := by decide
theorem test_call_sixteenth : see (atDepth State.reset 15) 0x2ABC (fun t => (t.stack[15], t.sp)) =
    some (0x202, 16) ∧ stops (atDepth State.reset 16) 0x2ABC = some (.stackOverflow 0x202) := by decide
theorem test_ret : see (State.reset.setStack (State.reset.stack.set 0 0x345) 1) 0x00FE
    (fun t => (t.pc, t.sp, t.stack[0])) = some (0x345, 0, 0x345) := by decide
theorem test_ret_empty : stops State.reset 0x00EE = some (.stackUnderflow 0x202) := by decide
theorem test_seImm : [0x3133, 0x3134].map (fun w => see (withV [(1, 0x33)]) w (fun t => t.pc)) =
    [some 0x204, some 0x202] := by decide
theorem test_sneImm : [0x4133, 0x4134].map (fun w => see (withV [(1, 0x33)]) w (fun t => t.pc)) =
    [some 0x202, some 0x204] := by decide
theorem test_seReg : [0x5120, 0x5127, 0x5110, 0x5130].map (fun w =>
    see (withV [(1, 0x33), (2, 0x33)]) w (fun t => t.pc)) = [some 0x204, some 0x204, some 0x204, some 0x202] := by decide
theorem test_sneReg : [0x9120, 0x9110, 0x9130].map (fun w =>
    see (withV [(1, 0x33), (2, 0x33)]) w (fun t => t.pc)) = [some 0x202, some 0x202, some 0x204] := by decide
theorem test_jpV0 : see (withV [(0, 4)]) 0xB300 (fun t => t.pc) = some 0x304 ∧
    see (withV [(0, 0xFF)]) 0xBFFF (fun t => t.pc) = some 0x10FE := by decide
theorem test_skip_past_end : see (State.reset.setPc 0xFFC) 0x3100 (fun t => t.pc) = some 0x1000 := by decide

/-! ### Data movement: V-LD -/

theorem test_ldImm : see State.reset 0x6FAB (fun t => t.getV 15) = some 0xAB := by decide
theorem test_ldReg : see (withV [(1, 0x11), (2, 0x22), (15, 1)]) 0x8120 v1f = some (0x22, 1, 0x202) := by decide
theorem test_ldI : see State.reset 0xA123 (fun t => t.i) = some 0x123 := by decide
theorem test_ldFromDT : see (State.reset.setDT 7) 0xF307 (fun t => (t.getV 3, t.dt)) = some (7, 6) := by decide
theorem test_ldToDT : see (withV [(1, 5)]) 0xF115 (fun t => t.dt) = some 4 ∧
    see ((withV [(1, 1)]).setDT 9) 0xF115 (fun t => t.dt) = some 0 := by decide
theorem test_ldToST : see (withV [(1, 0xFF)]) 0xF118 (fun t => t.st) = some 254 ∧
    see (withV [(1, 0)]) 0xF118 (fun t => t.st) = some 0 := by decide
theorem test_ldFont : [0x00, 0x0A, 0x0F, 0x10, 0xFF].map (fun b => see (withV [(1, b)]) 0xF129 (fun t => t.i)) =
    [some 0x50, some 0x82, some 0x9B, some 0xA0, some 0x54B] := by decide
theorem test_storeRegs : see ((withV [(0, 1), (1, 2), (2, 3)]).setI 0xFFD) 0xF255
    (fun t => ([0xFFC, 0xFFD, 0xFFE, 0xFFF].map t.mem.lookup, t.i)) = some ([0, 1, 2, 3], 0xFFD) := by decide
theorem test_storeRegs_past_end : stops (State.reset.setI 0xFFE) 0xF255 = some (.memOutOfRange 0x1000) ∧
    stops (State.reset.setI 0x1000) 0xF055 = some (.memOutOfRange 0x1000) := by decide
theorem test_loadRegs : see (State.reset.setI 0x50) 0xF465 (fun t => ([0, 1, 2, 3, 4, 5].map t.getV, t.i)) =
    some ([0xF0, 0x90, 0x90, 0x90, 0xF0, 0], 0x50) := by decide
theorem test_loadRegs_all : see ((withV [(15, 9)]).setI 0x52) 0xFF65 (fun t => t.v.toList) =
    some [0x90, 0x90, 0xF0, 0x20, 0x60, 0x20, 0x20, 0x70, 0xF0, 0x10, 0xF0, 0x80, 0xF0, 0xF0, 0x10, 0xF0] := by
  decide +kernel

/-! ### Arithmetic and logic: S1, S2, V-ALU, V-SUB, V-VF -/

theorem test_addImm : see (withV [(1, 0xFF)]) 0x7102 v1f = some (1, 0, 0x202) := by decide
theorem test_orReg : see (withV [(1, 0xF0), (2, 0x10), (15, 1)]) 0x8121 v1f = some (0xF0, 1, 0x202) := by decide
theorem test_andReg : see (withV [(1, 0xF0), (2, 0x10), (15, 1)]) 0x8122 v1f = some (0x10, 1, 0x202) := by decide
theorem test_xorReg : see (withV [(1, 0xF0), (2, 0x10), (15, 1)]) 0x8123 v1f = some (0xE0, 1, 0x202) := by decide
theorem test_addReg : [(0xFF, 0x02), (0x01, 0x02), (0x81, 0x7E), (0xF0, 0x10)].map (fun p =>
    see (withV [(1, p.1), (2, p.2), (15, 1)]) 0x8124 v1f) =
    [some (1, 1, 0x202), some (3, 0, 0x202), some (0xFF, 0, 0x202), some (0, 1, 0x202)] := by decide
theorem test_addReg_flag_operand : see (withV [(1, 0xFF), (15, 1)]) 0x81F4 v1f = some (0, 1, 0x202) ∧
    see (withV [(15, 3), (2, 5)]) 0x8F24 (fun t => t.getV 15) = some 0 := by decide
theorem test_sub : [(0x05, 0x03), (0x03, 0x05), (0x07, 0x07), (0xF0, 0x10)].map (fun p =>
    see (withV [(1, p.1), (2, p.2), (15, 1)]) 0x8125 v1f) =
    [some (2, 1, 0x202), some (0xFE, 0, 0x202), some (0, 0, 0x202), some (0xE0, 1, 0x202)] := by decide
theorem test_sub_flag_destination : see (withV [(15, 5), (2, 3)]) 0x8F25 (fun t => t.getV 15) = some 1 := by decide
theorem test_subn : [(0x03, 0x05), (0x05, 0x03), (0x07, 0x07)].map (fun p =>
    see (withV [(1, p.1), (2, p.2), (15, 1)]) 0x8127 v1f) =
    [some (2, 1, 0x202), some (0xFE, 0, 0x202), some (0, 0, 0x202)] := by decide
theorem test_subn_flag_destination : see (withV [(15, 3), (2, 5)]) 0x8F27 (fun t => t.getV 15) = some 1 := by decide
theorem test_shr : [(0xFF, 0x02), (0x80, 0xFF), (0x01, 0x00)].map (fun p =>
    see (withV [(1, p.1), (2, p.2), (15, 1)]) 0x8126 v1f) =
    [some (0x7F, 1, 0x202), some (0x40, 0, 0x202), some (0, 1, 0x202)] := by decide
theorem test_shr_flag_destination : [0x81, 0x02].map (fun b => see (withV [(15, b)]) 0x8F26 (fun t => t.getV 15)) =
    [some 1, some 0] := by decide
theorem test_shl : [(0xFF, 0x02), (0x81, 0x7E), (0x05, 0x00)].map (fun p =>
    see (withV [(1, p.1), (2, p.2), (15, 1)]) 0x812E v1f) =
    [some (0xFE, 1, 0x202), some (2, 1, 0x202), some (0x0A, 0, 0x202)] := by decide
theorem test_shl_flag_destination : [0x81, 0x05].map (fun b => see (withV [(15, b)]) 0x8F2E (fun t => t.getV 15)) =
    [some 1, some 0] := by decide
theorem test_addI : see ((withV [(1, 1), (15, 1)]).setI 0xFFF) 0xF11E (fun t => (t.i, t.getV 15)) =
    some (0x1000, 1) ∧ see ((withV [(1, 2), (15, 7)]).setI 0xFFFF) 0xF11E (fun t => (t.i, t.getV 15)) =
    some (1, 7) := by decide

/-! ### Decimal digits and random bytes: V-BCD, V-RND -/

theorem test_ldBcd : [0, 9, 10, 99, 100, 234, 255].map (fun b =>
    see ((withV [(4, b)]).setI 0x300) 0xF433 (fun t => [0x300, 0x301, 0x302].map t.mem.lookup)) =
    [some [0, 0, 0], some [0, 0, 9], some [0, 1, 0], some [0, 9, 9], some [1, 0, 0], some [2, 3, 4],
      some [2, 5, 5]] := by decide +kernel
theorem test_ldBcd_past_end : stops (State.reset.setI 0xFFE) 0xF433 = some (.memOutOfRange 0x1000) := by decide

/-- V-RND: whatever is drawn, a mask of zero gives zero. -/
theorem test_rnd_zero_mask : see (withV [(3, 0x55)]) 0xC300 (fun t => t.getV 3) = some 0 := by
  have h : see (withV [(3, 0x55)]) 0xC300 (fun t => t.getV 3) = some (Config.freeByte 0 0 &&& 0) := rfl
  rw [h]
  exact congrArg some (BitVec.and_zero)

/-- R134: the byte is the one of the run's own seed and count. -/
theorem test_rnd_source : see (State.reset.setSource 7 3) 0xC3FF (fun t => (t.seed, t.draws)) = some (7, 4) := by
  decide

/-! ### Display: V-DRW -/

theorem test_cls : see (State.reset.setVideo (BitVec.allOnes _)) 0x00E0 (fun t => t.video) = some 0 := by decide +kernel

/-- Row 1: glyph 0 at the origin. -/
theorem test_drw_glyph : see (State.reset.setI 0x50) 0xD125 (fun t => (cellsOn t, t.getV 15)) =
    some ([0, 1, 2, 3, 64, 67, 128, 131, 192, 195, 256, 257, 258, 259], 0) := by decide +kernel

/-- Rows 4 and 6: a run-on into the next row, and a row wrap. -/
theorem test_drw_edges : see (put ((withV [(1, 60)]).setI 0x300) 0x300 [0xFF]) 0xD121 cellsOn =
      some [60, 61, 62, 63, 64, 65, 66, 67] ∧
    see (put ((withV [(2, 31)]).setI 0x300) 0x300 [0x80, 0x80]) 0xD122 cellsOn = some [0, 1984] := by decide +kernel

/-- Rows 7 and 8: the last four cells, and the fault past them. -/
theorem test_drw_last_cells : see (put ((withV [(1, 60), (2, 31)]).setI 0x300) 0x300 [0xF0]) 0xD121 cellsOn =
      some [2044, 2045, 2046, 2047] ∧
    stops (put ((withV [(1, 60), (2, 31)]).setI 0x300) 0x300 [0xFF]) 0xD121 =
      some (.videoOutOfRange 2048) := by decide +kernel

/-- Rows 9, 11 and 13: the origin is reduced, no rows, one collision. -/
theorem test_drw_origin_and_flag : see (put ((withV [(1, 70), (2, 40)]).setI 0x300) 0x300 [0x80]) 0xD121 cellsOn =
      some [518] ∧
    see (withV [(15, 1)]) 0xD120 (fun t => (cellsOn t, t.getV 15)) = some ([], 0) ∧
    see ((put (State.reset.setI 0x300) 0x300 [0xC0]).setVideo 1) 0xD121 (fun t => (cellsOn t, t.getV 15)) =
      some ([1], 1) := by decide +kernel

/-- Rows 14 to 16: the last address, the one past it, and `VF` as the column. -/
theorem test_drw_memory_and_vf : see (put (State.reset.setI 0xFFF) 0xFFF [0x80]) 0xD121 cellsOn = some [0] ∧
    stops (State.reset.setI 0xFFF) 0xD122 = some (.memOutOfRange 0x1000) ∧
    see (put ((withV [(15, 5)]).setI 0x300) 0x300 [0x80]) 0xDF21 (fun t => (cellsOn t, t.getV 15)) =
      some ([5], 0) := by decide +kernel

/-! ### Keypad: V-KEY -/

theorem test_skp : see (holding (withV [(1, 10)]) 10) 0xE19E (fun t => t.pc) = some 0x204 ∧
    see (withV [(1, 10)]) 0xE19E (fun t => t.pc) = some 0x202 := by decide
theorem test_sknp : see (holding (withV [(1, 10)]) 10) 0xE1A1 (fun t => t.pc) = some 0x202 ∧
    see (withV [(1, 10)]) 0xE1A1 (fun t => t.pc) = some 0x204 := by decide
theorem test_key_index : stops (withV [(1, 0x10)]) 0xE19E = some (.keyIndexOutOfRange 16) ∧
    stops (withV [(1, 0xFF)]) 0xE1A1 = some (.keyIndexOutOfRange 255) := by decide
theorem test_ldKey : see (holding (holding State.reset 9) 4) 0xF30A (fun t => (t.getV 3, t.pc)) =
    some (4, 0x202) := by decide
theorem test_ldKey_waits : see ((withV [(3, 0x55)]).setDT 2) 0xF30A (fun t => (t.getV 3, t.pc, t.dt)) =
    some (0x55, 0x200, 1) := by decide

/-! ### The host -/

theorem test_engine_order :
    Engine.play .absent [.reset 0 State.reset.key 7, .romLoad [0x12, 0x00], .cycle] ≠ none ∧
    Engine.play .absent [.romLoad []] = none ∧ Engine.play .absent [.reset 0 State.reset.key 7, .cycle] = none := by
  decide +kernel
theorem test_rom_too_long : nextOf (State.reset.loadRom (List.replicate 3585 0)) = none := by decide +kernel

/-! ### Witnesses: for each statement, inputs that meet its hypotheses -/

/-- A state with `I`, at the given place. -/
def atI (w : Word) : State := State.reset.setI w

/-- A jump to its own address at 0x200, with a timer running. -/
def selfJump : State := (State.reset.setDT 3).withFetchWord 16 0x1200

theorem witness_DecodeOfEncodeIsIdentity : (Instr.drw 15 15 15).wellFormed = true ∧ (Instr.jp 0xFFF).wellFormed = true ∧
    (Instr.nop 0xFFFF).wellFormed = true := by decide

theorem witness_EveryWordDecodes : unmapped 0x0001 = true ∧ decode 0x0001 = .nop 0x0001 ∧ unmapped 0x000E = false := by
  decide

theorem witness_DispatchFollowsMatchAndMask : (∀ u, Instr.skp 1 ≠ .nop u) ∧ (Instr.skp 1).selectedBy 0xE10E ∧
    (∀ u, Instr.loadRegs 2 ≠ .nop u) ∧ (Instr.loadRegs 2).selectedBy 0xF965 := by
  exact ⟨fun _ => nofun, by decide, fun _ => nofun, by decide⟩

theorem witness_OperandsAreBitFields : (decode 0xDF0E).operandX = some 15 ∧ (decode 0xDF0E).operandY = some 0 ∧
    (decode 0xDF0E).operandN = some 14 ∧ (decode 0x60FF).operandKK = some 255 ∧
    (decode 0x1FFF).operandNNN = some 4095 := by decide

theorem witness_AliasWordsAreTheListedOnes : ([0x0000, 0x0FFE, 0x5001, 0x9FFF, 0xE00E, 0xEFF1].all aliasWord &&
    !([0x00E0, 0x00EE, 0x5120, 0x9120, 0xE19E, 0xE1A1, 0x0001, 0xF165].any aliasWord)) = true ∧
    decodeIn .tableKeyed 0xE00E ≠ decodeIn .exact 0xE00E := by decide

theorem witness_CycleRunsDecodedInstruction :
    (let s := (State.reset.setPc 0xFFE).withFetchWord 16 0x00E0
     s.memRead 0xFFE = .ok 0x00 ∧ s.memRead 0xFFF = .ok 0xE0 ∧ decodeBytes [0x00, 0xE0] = .ok (.cls, []) ∧
       (nextOf (exec .cls (s.advance 0x00E0))).isSome = true) ∧
    (let s := State.reset.withFetchWord 16 0x00EE
     s.memRead 0x200 = .ok 0x00 ∧ s.memRead 0x201 = .ok 0xEE ∧ decodeBytes [0x00, 0xEE] = .ok (.ret, []) ∧
       faultOf (exec .ret (s.advance 0x00EE)) = some (.stackUnderflow 0x202)) := by decide

theorem witness_FetchFaultsPastMemory : (State.reset.setPc 0xFFE).pc.toNat ≤ 0xFFE ∧
    (State.reset.setPc 0xFFF).pc.toNat = 0xFFF ∧ 0x1000 ≤ (State.reset.setPc 0x1000).pc.toNat := by decide

theorem witness_TimersStepInEveryCycle :
    (let s := (withV [(1, 5)]).withFetchWord 16 0xF115
     s.fetch = .ok 0xF115 ∧ decode 0xF115 = .ldToDT 1 ∧ (∀ x, decode 0xF115 ≠ .ldToST x) ∧
       (nextOf (step s)).isSome = true) ∧
    (let s := (withV [(1, 5)]).withFetchWord 16 0xF118
     s.fetch = .ok 0xF118 ∧ decode 0xF118 = .ldToST 1 ∧ (∀ x, decode 0xF118 ≠ .ldToDT x) ∧
       (nextOf (step s)).isSome = true) := by decide

theorem witness_TimersCountCycles : ∃ t, cycles 1 selfJump = .next t ∧ selfJump.avoids Instr.writesDT 1 ∧
    selfJump.avoids Instr.writesST 1 := by
  have hf : selfJump.fetch = .ok 0x1200 := by decide
  refine ⟨_, rfl, ⟨fun w h => ?_, fun _ _ => trivial⟩, ⟨fun w h => ?_, fun _ _ => trivial⟩⟩ <;>
    (rw [hf] at h; cases h; decide)

theorem witness_SelfJumpChangesOnlyTimers : selfJump.atSelfJump := ⟨0x200, by decide, by decide⟩

theorem witness_StepKeepsInvariant : selfJump.Inv ∧ ∃ t, step selfJump = .next t := ⟨by decide, _, rfl⟩

theorem witness_StoreReadsBack : State.reset.Inv ∧
    State.reset.memWrite 0xFFF 0xAB = .ok (State.reset.setMem [(0xFFF, 0xAB)]) ∧
    State.reset.memWrite 0x000 0 = .ok State.reset := by decide +kernel

theorem witness_AccessesPastMemoryFault : 0xFFF ≤ 0xFFF ∧ 0xFFF < 0x1000 := by decide

theorem witness_EqualReadsGiveEqualMemory : Memory.wf (Memory.store (Memory.store [] 0x300 1) 0x200 2) = true ∧
    Memory.wf [(0x200, 2), (0x300, 1)] = true ∧
    ∀ a, a < 0x1000 → Memory.lookup (Memory.store (Memory.store [] 0x300 1) 0x200 2) a =
      Memory.lookup [(0x200, 2), (0x300, 1)] a := by
  exact ⟨by decide, by decide, fun a _ => rfl⟩

theorem witness_StoredCodeIsExecuted : (State.reset.setPc 0xFFE).Inv ∧
    ∃ t u, (State.reset.setPc 0xFFE).memWrite 0xFFE 0x6A = .ok t ∧ t.memWrite 0xFFF 0x55 = .ok u :=
  ⟨by decide, _, _, rfl, rfl⟩

theorem witness_JumpGoesToItsAddress : (0x1FFF : Word) &&& 0xF000 = 0x1000 ∧ (0x1000 : Word) &&& 0xF000 = 0x1000 ∧
    selfJump.atSelfJump := ⟨by decide, by decide, 0x200, by decide, by decide⟩

theorem witness_CallPushesReturnAddress : (atDepth State.reset 15).sp.val < 16 ∧ (atDepth State.reset 16).sp.val = 16 := by
  decide

theorem witness_ReturnPopsLastEntry : (atDepth State.reset 1).sp.val = (0 : Fin 16).val + 1 ∧
    (atDepth State.reset 16).sp.val = (15 : Fin 16).val + 1 ∧ State.reset.sp.val = 0 := by decide

theorem witness_ReturnUndoesCall : ∃ t, exec (.call 0xABC) (atDepth State.reset 15) = .next t ∧
    (t.setV 0 1).stack = t.stack ∧ (t.setV 0 1).sp = t.sp := ⟨_, rfl, rfl, rfl⟩

theorem witness_ProgramCounterChangesOnlyAsListed : (∃ t, exec (.ldKey 3) State.reset = .next t) ∧
    (∃ t, exec (.jpV0 0xFFF) State.reset = .next t) ∧ (∃ t, exec .ret (atDepth State.reset 16) = .next t) ∧
    ∃ t, exec .cls State.reset = .next t := ⟨⟨_, rfl⟩, ⟨_, rfl⟩, ⟨_, rfl⟩, _, rfl⟩

theorem witness_UnmappedWordsDoNothing : unmapped 0xF000 = true ∧
    (State.reset.withFetchWord 16 0xF000).fetch = .ok 0xF000 := by decide

theorem witness_LoadImmediateSetsRegister : (0x6FFF : Word) &&& 0xF000 = 0x6000 := by decide

theorem witness_BlockStoreWritesRegisters : (atI 0xFF0).Inv ∧ (atI 0xFF0).i.toNat + (15 : Reg).val ≤ 0xFFF ∧
    0xFFF < (atI 0xFF1).i.toNat + (15 : Reg).val := by decide

theorem witness_BlockLoadReadsRegisters : (atI 0xFFF).i.toNat + (0 : Reg).val ≤ 0xFFF ∧
    0xFFF < (atI 0x1000).i.toNat + (0 : Reg).val ∧ (2 : Reg) < 3 := by decide

theorem witness_AddImmediateWraps : (0x7FFF : Word) &&& 0xF000 = 0x7000 := by decide

theorem witness_OnlySixInstructionsSetFlag : (∃ t, exec (.shl 15 0) State.reset = .next t) ∧
    (∃ t, exec (.orReg 14 15) State.reset = .next t) ∧ (Instr.orReg 14 15).operandX ≠ some 15 :=
  ⟨⟨_, rfl⟩, ⟨_, rfl⟩, by decide⟩

theorem witness_BcdStoresThreeDigits : (atI 0xFFD).Inv ∧ (atI 0xFFD).i.toNat + 2 ≤ 0xFFF ∧
    0xFFF < (atI 0xFFE).i.toNat + 2 := by decide

theorem witness_RandomIsMaskedFreeByte : (0x0F : Byte).getLsbD 7 = false := by decide

theorem witness_ClearTurnsEveryCellOff : (0x0FF0 : Word) &&& 0xF00F = 0x0000 := by decide

/-- V-DRW row 7: transparent bits may reach past the buffer. -/
theorem witness_DrawTurnsOverSpritePixels :
    (let s := put (atI 0xFFF) 0xFFF [0xF0]
     s.i.toNat + ((1 : BitVec 4).toNat - 1) ≤ 0xFFF ∧
       ((List.range 1).all fun r => (List.range 8).all fun c =>
         !s.spriteBit r c || decide (spriteIndex 60 31 r c < Config.videoCells)) = true) := by decide

theorem witness_DrawFaultsWhereListed :
    (0 < (2 : BitVec 4).toNat ∧ 0xFFF < (atI 0xFFF).i.toNat + ((2 : BitVec 4).toNat - 1)) ∧
    (let s := put (atI 0x300) 0x300 [0xFF]
     s.i.toNat + ((1 : BitVec 4).toNat - 1) ≤ 0xFFF ∧ s.spriteBit 0 4 = true ∧ spriteIndex 60 31 0 4 = 2048 ∧
       s.spriteBit 0 3 = true ∧ spriteIndex 60 31 0 3 = 2047) := by decide

theorem witness_DrawingTwiceRestoresBuffer : (1 : Reg) ≠ 15 ∧ (2 : Reg) ≠ 15 ∧
    ∃ t, exec (.drw 1 2 5) (atI 0x50) = .next t := ⟨by decide, by decide, _, rfl⟩

theorem witness_SpritePixelsShareNoCell :
    place .rowWrapLinearSpill 8 16 7 15 14 7 = .cell (⟨118, by decide⟩ : Fin (8 * 16)) := by decide

theorem witness_EdgeReadingsAgreeInside : (56 : Byte).toNat % 64 ≤ 64 - 8 ∧
    (17 : Byte).toNat % 32 + (List.replicate 15 (0xFF : Byte)).length ≤ 32 ∧
    ∀ p ∈ spritePixels 0 [0xFF], (56 : Byte).toNat % 64 + p.2 < 64 ∧ (31 : Byte).toNat % 32 + p.1 < 32 := by decide

theorem witness_KeySkipsTestNamedKey : ((withV [(1, 15)]).getV 1).toNat = (15 : Reg).val ∧
    15 < ((withV [(1, 16)]).getV 1).toNat := by decide

theorem witness_KeyWaitTakesLowestKey : (∀ j : Reg, j < 4 → (holding (holding State.reset 9) 4).key[j.val] = false) ∧
    (holding (holding State.reset 9) 4).key[4] = true ∧ ∀ k : Reg, State.reset.key[k.val] = false := by decide

theorem witness_KeyWaitRepeatsWhileNoKey : (State.reset.withFetchWord 16 0xF30A).fetch = .ok 0xF30A ∧
    decode 0xF30A = .ldKey 3 ∧ ∀ j : Reg, (State.reset.withFetchWord 16 0xF30A).key[j.val] = false := by decide

theorem witness_FaultsAreTheListedFive : exec .ret State.reset = .fault (.stackUnderflow 0x200) ∧
    exec (.ldBcd 0) (atI 0xFFE) = .fault (.memOutOfRange 0x1000) ∧
    (let s := put ((withV [(1, 60), (2, 31)]).setI 0x300) 0x300 [0xFF]
     faultOf (exec (.drw 1 2 1) s) = some (.videoOutOfRange 2048) ∧ s.i.toNat + ((1 : BitVec 4).toNat - 1) ≤ 0xFFF ∧
       s.spriteBit 0 4 = true ∧ spriteIndex (s.getV 1) (s.getV 2) 0 4 = 2048) := ⟨rfl, rfl, by decide +kernel⟩

theorem witness_PartsHaveTheListedWriters : (∃ t, exec (.addI 1) (withV [(1, 1)]) = .next t ∧ t.i ≠ State.reset.i) ∧
    ∃ t, exec (.call 0) State.reset = .next t ∧ t.sp ≠ State.reset.sp := ⟨⟨_, rfl, by decide⟩, _, rfl, by decide⟩

theorem witness_StackIsReachedOnlyByCallAndRet :
    (∃ t, exec (.call 0xFFF) (atDepth (State.reset.setPc 0x202) 15) = .next t ∧ t.stack[15] = 0x202) ∧
    (∃ t, exec .ret (atDepth State.reset 16) = .next t) ∧ (∃ t, exec .cls State.reset = .next t) ∧
    exec (.call 0xFFF) (atDepth State.reset 16) = .fault (.stackOverflow 0x200) :=
  ⟨⟨_, rfl, by decide⟩, ⟨_, rfl⟩, ⟨_, rfl⟩, rfl⟩

theorem witness_DelayTimerHasNoOtherEffect : (∃ t, step selfJump = .next t) ∧
    (∃ t, exec (.ldToDT 1) (withV [(1, 5)]) = .next t ∧ t.dt ≠ (withV [(1, 5)]).dt) ∧
    (∀ x, Instr.cls ≠ .ldToDT x) ∧ ∀ x, Instr.cls ≠ .ldFromDT x :=
  ⟨⟨_, rfl⟩, ⟨_, rfl, by decide⟩, fun _ => nofun, fun _ => nofun⟩

theorem witness_SoundTimerIsReadByNothing : (∃ t, step selfJump = .next t) ∧
    (∃ t, exec (.ldToST 1) (withV [(1, 5)]) = .next t ∧ t.st ≠ (withV [(1, 5)]).st) ∧
    ∀ x, Instr.ldFromDT 1 ≠ .ldToST x := ⟨⟨_, rfl⟩, ⟨_, rfl, by decide⟩, fun _ => nofun⟩

theorem witness_KeypadIsReadByThreeInstructions : (∃ t, step selfJump = .next t) ∧ (∀ x, Instr.cls ≠ .skp x) ∧
    (∀ x, Instr.cls ≠ .sknp x) ∧ ∀ x, Instr.cls ≠ .ldKey x :=
  ⟨⟨_, rfl⟩, fun _ => nofun, fun _ => nofun, fun _ => nofun⟩

theorem witness_OpcodeIsNotObservable : ∃ t, step selfJump = .next t := ⟨_, rfl⟩

theorem witness_IndexIsReadOnlyAsAnAddress : (∃ t, exec (.addI 1) (atI 0xFFFF) = .next t) ∧
    (∃ t, exec (.ldI 0xFFF) (atI 0xFFFF) = .next t) ∧ (∃ t, exec (.ldFont 15) (atI 0xFFFF) = .next t) ∧
    (∃ t, exec (.storeRegs 15) (atI 0xFF0) = .next t) ∧ (∃ t, exec (.jp 0) (atI 0xFFFF) = .next t) ∧
    exec .ret (atI 0xFFFF) = .fault (.stackUnderflow 0x200) :=
  ⟨⟨_, rfl⟩, ⟨_, rfl⟩, ⟨_, rfl⟩, ⟨_, rfl⟩, ⟨_, rfl⟩, rfl⟩

theorem witness_RomLoadCopiesImage : (List.replicate 3584 (0x12 : Byte)).length ≤ 3584 ∧
    3584 < (List.replicate 3585 (0x12 : Byte)).length ∧ ([0x12, 0x00] : List Byte)[1]? = some 0x00 :=
  ⟨List.length_replicate.le, List.length_replicate.ge, rfl⟩

theorem witness_EngineTakesEventsInOrder : Engine.accept .absent (.reset 0 State.reset.key 7) ≠ none ∧
    Engine.accept (.constructed State.reset) (.romLoad []) ≠ none ∧
    Engine.accept (.running selfJump) .cycle ≠ none ∧ (∃ t, step selfJump = .next t) ∧
    step (State.reset.setPc 0xFFF) = .fault (.memOutOfRange 0x1000) ∧
    Engine.play (.faulted (.stackUnderflow 0)) [.cycle, .keys State.reset.key] =
      some (.faulted (.stackUnderflow 0)) :=
  ⟨nofun, nofun, nofun, ⟨_, rfl⟩, rfl, rfl⟩

theorem witness_RandomSourceIsReadOnlyByRnd : (∀ x kk, Instr.cls ≠ .rnd x kk) ∧ ∃ t, step selfJump = .next t :=
  ⟨fun _ _ => nofun, _, rfl⟩

end Sys2Proof.Tests
end

section
/-! SUPPORT and O4. The operand fields of a word as plain arithmetic, and the dispatch filling every operand of the
instruction it takes from the field of that name (spec 00_scope.md R9; 30_encoding.md R72 to R75). -/

namespace Sys2Proof

variable (w : Word)

/-! ### The fields as numbers -/

theorem fieldX_val : (fieldX w).val = w.toNat / 256 % 16 := by
  simp [fieldX, Nat.shiftRight_eq_div_pow]

theorem fieldY_val : (fieldY w).val = w.toNat / 16 % 16 := by
  simp [fieldY, Nat.shiftRight_eq_div_pow]

theorem fieldKK_toNat : (fieldKK w).toNat = w.toNat % 256 := by
  simp [fieldKK]

theorem fieldN_toNat : (fieldN w).toNat = w.toNat % 16 := by
  simp [fieldN]

theorem fieldNNN_toNat : (fieldNNN w).toNat = w.toNat % 4096 := by
  simp [fieldNNN]

theorem Machine.addressOf_toNat (nnn : BitVec 12) : (addressOf nnn).toNat = nnn.toNat :=
  BitVec.toNat_setWidth_of_le (by decide)

theorem Machine.wordOf_toNat (b : Byte) : (wordOf b).toNat = b.toNat :=
  BitVec.toNat_setWidth_of_le (by decide)

/-! ### The operands come from the fields -/

/-- Every operand that `i` has is the field of `w` of that name. With the field as the default of an absent operand this
holds by computation on each row of the dispatch, whatever the row's format. -/
structure Instr.ReadsFields (i : Instr) (w : Word) : Prop where
  x : i.operandX.getD (fieldX w) = fieldX w
  y : i.operandY.getD (fieldY w) = fieldY w
  kk : i.operandKK.getD (fieldKK w) = fieldKK w
  n : i.operandN.getD (fieldN w) = fieldN w
  nnn : i.operandNNN.getD (fieldNNN w) = fieldNNN w

/-- An operand that is there, under `Instr.ReadsFields`. -/
theorem eq_of_getD_eq {α : Type} {o : Option α} {a field : α} (h : o.getD field = field) (ho : o = some a) :
    a = field := by
  rwa [ho] at h

variable {w}

theorem Instr.ReadsFields.ite {c : Prop} [Decidable c] {i j : Instr} (hi : i.ReadsFields w) (hj : j.ReadsFields w) :
    (if c then i else j).ReadsFields w := by
  split
  · exact hi
  · exact hj

variable (w)

/-- Whichever row of the two-level dispatch is taken, its operands are the fields of its format. -/
theorem decode_readsFields : (decode w).ReadsFields w := by
  rw [Machine.decode_eq]
  unfold decodeTableKeyed decodeTable0 decodeTable8 decodeTableE decodeTableF
  repeat' apply Instr.ReadsFields.ite
  all_goals exact ⟨rfl, rfl, rfl, rfl, rfl⟩

/-- Settles O4: each operand is the field of its name, and each field is its bits of the word as a number. -/
theorem operandsAreBitFields : Obligations.OperandsAreBitFields := by
  refine ⟨fun w => ?_, Machine.addressOf_toNat, Machine.wordOf_toNat⟩
  obtain ⟨hx, hy, hkk, hn, hnnn⟩ := decode_readsFields w
  refine ⟨fun x h => ?_, fun y h => ?_, fun kk h => ?_, fun n h => ?_, fun nnn h => ?_⟩
  · rw [eq_of_getD_eq hx h, fieldX_val]
  · rw [eq_of_getD_eq hy h, fieldY_val]
  · rw [eq_of_getD_eq hkk h, fieldKK_toNat]
  · rw [eq_of_getD_eq hn h, fieldN_toNat]
  · rw [eq_of_getD_eq hnnn h, fieldNNN_toNat]

end Sys2Proof
end

section
/-! SUPPORT. Non-interference, said once for every instruction: putting other contents into parts of the state that an
instruction does not use changes nothing else it does, a fault included. That a part "has no other effect" or "is read by
nothing else" (spec 10_state.md R22, R24, R26, R27, R29, R30; 44_bcd_random.md R134) follows by choosing the part. -/

namespace Sys2Proof.Machine

variable {s t : State}

/-! ### Other contents for the parts that few instructions use -/

/-- Other contents for some parts of the state; `none` leaves a part as it is. -/
structure Overwrite where
  index : Option Word := none
  stack : Option (Vector Word Config.stackDepth) := none
  dt : Option Byte := none
  st : Option Byte := none
  word : Option Word := none
  key : Option Keys := none
  seed : Option Nat := none
  draws : Option Nat := none

/-- The state with the other contents in place. With one part given this computes to that part's own update:
`{ dt := some b }` to `State.setDT b`, `{ key := some keys }` to `State.setKeys keys`, and so on. -/
def Overwrite.apply (ρ : Overwrite) (s : State) : State :=
  { s with
    i := ρ.index.getD s.i
    stack := ρ.stack.getD s.stack
    dt := ρ.dt.getD s.dt
    st := ρ.st.getD s.st
    opcode := ρ.word.getD s.opcode
    key := ρ.key.getD s.key
    seed := ρ.seed.getD s.seed
    draws := ρ.draws.getD s.draws }

/-- The overwrite leaves alone every part that the instruction reads or writes. No instruction uses the transient word. -/
def Overwrite.Spares (ρ : Overwrite) : Instr → Prop
  | .ldI _ | .addI _ | .ldFont _ | .ldBcd _ | .storeRegs _ | .loadRegs _ | .drw _ _ _ => ρ.index = none
  | .call _ | .ret => ρ.stack = none
  | .ldFromDT _ | .ldToDT _ => ρ.dt = none
  | .ldToST _ => ρ.st = none
  | .skp _ | .sknp _ | .ldKey _ => ρ.key = none
  | .rnd _ _ => ρ.seed = none ∧ ρ.draws = none
  | _ => True

variable {ρ : Overwrite}

@[simp] theorem Overwrite.mem_apply (s : State) : (ρ.apply s).mem = s.mem := rfl
@[simp] theorem Overwrite.getV_apply (s : State) (r : Reg) : (ρ.apply s).getV r = s.getV r := rfl
@[simp] theorem Overwrite.video_apply (s : State) : (ρ.apply s).video = s.video := rfl

theorem Overwrite.i_apply (h : ρ.index = none) (s : State) : (ρ.apply s).i = s.i := by
  simp [Overwrite.apply, h]

theorem Overwrite.key_apply (h : ρ.key = none) (s : State) : (ρ.apply s).key = s.key := by
  simp [Overwrite.apply, h]

theorem Overwrite.apply_skipIf (ρ : Overwrite) (s : State) (c : Bool) :
    (ρ.apply s).skipIf c = ρ.apply (s.skipIf c) := by
  cases c <;> rfl

/-! ### The meanings that can fault, under an overwrite -/

theorem exec_ldBcd_apply (h : ρ.index = none) (x : Reg) (s : State) :
    exec (.ldBcd x) (ρ.apply s) = mapNext ρ.apply (exec (.ldBcd x) s) := by
  have hi := ρ.i_apply h s
  rcases Nat.lt_or_ge (s.i.toNat + 2) Config.memSize with hs | hs
  · rw [exec_ldBcd_of_lt hs, exec_ldBcd_of_lt (by rwa [hi]), hi]
    rfl
  · rw [exec_ldBcd_of_ge hs, exec_ldBcd_of_ge (s := ρ.apply s) (by rwa [hi]), hi]
    rfl

theorem exec_storeRegs_apply (h : ρ.index = none) (x : Reg) (s : State) :
    exec (.storeRegs x) (ρ.apply s) = mapNext ρ.apply (exec (.storeRegs x) s) := by
  have hi := ρ.i_apply h s
  rcases Nat.lt_or_ge (s.i.toNat + x.val) Config.memSize with hs | hs
  · rw [exec_storeRegs_of_lt hs, exec_storeRegs_of_lt (by rwa [hi]), hi]
    rfl
  · rw [exec_storeRegs_of_ge hs, exec_storeRegs_of_ge (s := ρ.apply s) (by rwa [hi]), hi]
    rfl

theorem exec_loadRegs_apply (h : ρ.index = none) (x : Reg) (s : State) :
    exec (.loadRegs x) (ρ.apply s) = mapNext ρ.apply (exec (.loadRegs x) s) := by
  have hi := ρ.i_apply h s
  rcases Nat.lt_or_ge (s.i.toNat + x.val) Config.memSize with hs | hs
  · obtain ⟨u, hu, hframe, hregs⟩ := exec_loadRegs_of_lt hs
    obtain ⟨u', hu', hframe', hregs'⟩ := exec_loadRegs_of_lt (s := ρ.apply s) (by rwa [hi])
    have hregs_eq (q : Reg) : u'.getV q = u.getV q := by
      rw [hregs' q, hregs q, hi, Overwrite.mem_apply, Overwrite.getV_apply]
    have hv : u'.v = u.v := Vector.ext fun k hk => hregs_eq ⟨k, hk⟩
    rw [hu, hu', hframe', hv, hframe]
    rfl
  · rw [exec_loadRegs_of_ge hs, exec_loadRegs_of_ge (s := ρ.apply s) (by rwa [hi]), hi]
    rfl

theorem exec_drw_apply (h : ρ.index = none) (x y : Reg) (n : BitVec 4) (s : State) :
    exec (.drw x y n) (ρ.apply s) = mapNext ρ.apply (exec (.drw x y n) s) := by
  have hi := ρ.i_apply h s
  by_cases hs : n.toNat = 0 ∨ s.i.toNat + (n.toNat - 1) < Config.memSize
  · have hrows : (ρ.apply s).spriteRows n.toNat = s.spriteRows n.toNat := by
      simp only [State.spriteRows, hi, Overwrite.mem_apply]
    rw [exec_drw_of_lt hs, exec_drw_of_lt (by rwa [hi]), hrows]
    simp only [Overwrite.getV_apply, Overwrite.video_apply]
    cases drawSprite Config.drawEdge Config.videoWidth Config.videoHeight (s.getV x) (s.getV y)
        (s.spriteRows n.toNat) s.video with
    | error f => rfl
    | ok cv => rfl
  · obtain ⟨h0, hge⟩ : 0 < n.toNat ∧ Config.memSize ≤ s.i.toNat + (n.toNat - 1) := by omega
    rw [exec_drw_of_ge h0 hge, exec_drw_of_ge (s := ρ.apply s) h0 (by rwa [hi]), hi]
    rfl

theorem exec_call_apply (h : ρ.stack = none) (nnn : BitVec 12) (s : State) :
    exec (.call nnn) (ρ.apply s) = mapNext ρ.apply (exec (.call nnn) s) := by
  obtain ⟨index, stack, dt, st, word, key, seed, draws⟩ := ρ
  subst h
  rcases Nat.lt_or_ge s.sp.val 16 with hs | hs
  · rw [exec_call_of_lt hs, exec_call_of_lt (s := Overwrite.apply _ s) hs]
    rfl
  · have hfull : s.sp.val = 16 := by omega
    rw [exec_call_full hfull, exec_call_full (s := Overwrite.apply _ s) hfull]
    rfl

theorem exec_ret_apply (h : ρ.stack = none) (s : State) :
    exec .ret (ρ.apply s) = mapNext ρ.apply (exec .ret s) := by
  obtain ⟨index, stack, dt, st, word, key, seed, draws⟩ := ρ
  subst h
  rcases Nat.eq_zero_or_pos s.sp.val with h0 | h0
  · rw [exec_ret_empty h0, exec_ret_empty (s := Overwrite.apply _ s) h0]
    rfl
  · obtain ⟨k, hk⟩ := Nat.exists_eq_succ_of_ne_zero h0.ne'
    have hk16 : k < 16 := by omega
    rw [exec_ret_of_pos hk16 hk, exec_ret_of_pos (s := Overwrite.apply _ s) hk16 hk]
    rfl

theorem exec_skp_apply (h : ρ.key = none) (x : Reg) (s : State) :
    exec (.skp x) (ρ.apply s) = mapNext ρ.apply (exec (.skp x) s) := by
  rcases Nat.lt_or_ge (s.getV x).toNat 16 with hk | hk
  · rw [exec_skp_of_lt hk, exec_skp_of_lt (s := ρ.apply s) hk, ρ.apply_skipIf]
    simp only [ρ.key_apply h, Overwrite.getV_apply, mapNext_next]
  · rw [exec_skp_of_ge hk, exec_skp_of_ge (s := ρ.apply s) hk]
    rfl

theorem exec_sknp_apply (h : ρ.key = none) (x : Reg) (s : State) :
    exec (.sknp x) (ρ.apply s) = mapNext ρ.apply (exec (.sknp x) s) := by
  rcases Nat.lt_or_ge (s.getV x).toNat 16 with hk | hk
  · rw [exec_sknp_of_lt hk, exec_sknp_of_lt (s := ρ.apply s) hk, ρ.apply_skipIf]
    simp only [ρ.key_apply h, Overwrite.getV_apply, mapNext_next]
  · rw [exec_sknp_of_ge hk, exec_sknp_of_ge (s := ρ.apply s) hk]
    rfl

theorem exec_ldKey_apply (h : ρ.key = none) (x : Reg) (s : State) :
    exec (.ldKey x) (ρ.apply s) = mapNext ρ.apply (exec (.ldKey x) s) := by
  simp only [exec, execLdKey, ρ.key_apply h]
  cases lowestKey s.key with
  | none => rfl
  | some k => rfl

/-! ### Every instruction under an overwrite -/

/-- An instruction whose parts an overwrite spares does the same on both sides of it, a fault included. -/
theorem exec_apply {i : Instr} (h : ρ.Spares i) (s : State) :
    exec i (ρ.apply s) = mapNext ρ.apply (exec i s) := by
  have skip (c : Bool) : Host.Outcome.next ((ρ.apply s).skipIf c) = mapNext ρ.apply (.next (s.skipIf c)) :=
    congrArg _ (ρ.apply_skipIf s c)
  cases i with
  | ldBcd x => exact exec_ldBcd_apply h x s
  | storeRegs x => exact exec_storeRegs_apply h x s
  | loadRegs x => exact exec_loadRegs_apply h x s
  | drw x y n => exact exec_drw_apply h x y n s
  | call nnn => exact exec_call_apply h nnn s
  | ret => exact exec_ret_apply h s
  | skp x => exact exec_skp_apply h x s
  | sknp x => exact exec_sknp_apply h x s
  | ldKey x => exact exec_ldKey_apply h x s
  | seImm x kk => exact skip _
  | sneImm x kk => exact skip _
  | seReg x y => exact skip _
  | sneReg x y => exact skip _
  | ldI nnn | addI x | ldFont x | ldFromDT x | ldToDT x | ldToST x =>
    obtain ⟨index, stack, dt, st, word, key, seed, draws⟩ := ρ
    cases h
    rfl
  | rnd x kk =>
    obtain ⟨index, stack, dt, st, word, key, seed, draws⟩ := ρ
    obtain ⟨rfl, rfl⟩ := h
    rfl
  | _ => rfl

/-- A part that can be put in place unnoticed is a part the instruction does not change. -/
theorem apply_eq_self_of_exec_next {i : Instr} (h : ρ.Spares i) (hs : ρ.apply s = s) (ht : exec i s = .next t) :
    ρ.apply t = t := by
  have heq := exec_apply h s
  rw [hs, ht, mapNext_next] at heq
  exact (Host.Outcome.next.inj heq).symm

end Sys2Proof.Machine
end

section
/-! SUPPORT and O53, O54, O55, O56. The timers, the keypad and the transient word: which instruction changes each, and that
the others do the same whatever it holds (spec 10_state.md R26, R27, R29, R30). -/

namespace Sys2Proof.Machine

variable {i : Instr} {s t : State}

/-! ### Which instructions the parts' overwrites spare -/

theorem spares_dt (hw : ∀ x, i ≠ .ldToDT x) (hr : ∀ x, i ≠ .ldFromDT x) (b : Byte) :
    Overwrite.Spares { dt := some b } i := by
  cases i with
  | ldToDT x => exact absurd rfl (hw x)
  | ldFromDT x => exact absurd rfl (hr x)
  | _ => simp [Overwrite.Spares]

theorem spares_st (hw : ∀ x, i ≠ .ldToST x) (b : Byte) : Overwrite.Spares { st := some b } i := by
  cases i with
  | ldToST x => exact absurd rfl (hw x)
  | _ => simp [Overwrite.Spares]

theorem spares_key (hskp : ∀ x, i ≠ .skp x) (hsknp : ∀ x, i ≠ .sknp x) (hld : ∀ x, i ≠ .ldKey x) (key : Keys) :
    Overwrite.Spares { key := some key } i := by
  cases i with
  | skp x => exact absurd rfl (hskp x)
  | sknp x => exact absurd rfl (hsknp x)
  | ldKey x => exact absurd rfl (hld x)
  | _ => simp [Overwrite.Spares]

theorem spares_word (i : Instr) (w : Word) : Overwrite.Spares { word := some w } i := by
  cases i <;> simp [Overwrite.Spares]

/-! ### What an instruction leaves of them -/

theorem exec_next_dt (hw : ∀ x, i ≠ .ldToDT x) (h : exec i s = .next t) : t.dt = s.dt := by
  by_cases hr : ∃ x, i = .ldFromDT x
  · obtain ⟨x, rfl⟩ := hr
    cases h
    rfl
  · have hspares := spares_dt hw (fun x hx => hr ⟨x, hx⟩) s.dt
    exact (congrArg State.dt (apply_eq_self_of_exec_next hspares rfl h)).symm

theorem exec_next_st (hw : ∀ x, i ≠ .ldToST x) (h : exec i s = .next t) : t.st = s.st :=
  (congrArg State.st (apply_eq_self_of_exec_next (spares_st hw s.st) rfl h)).symm

theorem exec_next_opcode (h : exec i s = .next t) : t.opcode = s.opcode :=
  (congrArg State.opcode (apply_eq_self_of_exec_next (spares_word i s.opcode) rfl h)).symm

/-- No instruction writes the keypad; the three that read it only skip, rewind or write a register. -/
theorem exec_next_key (h : exec i s = .next t) : t.key = s.key := by
  cases i with
  | skp x =>
    obtain ⟨-, rfl⟩ := exec_skp_next h
    exact s.key_skipIf _
  | sknp x =>
    obtain ⟨-, rfl⟩ := exec_sknp_next h
    exact s.key_skipIf _
  | ldKey x =>
    rcases exec_ldKey (s := s) x with hwait | ⟨k, -, hheld⟩
    · cases hwait.symm.trans h
      rfl
    · cases hheld.symm.trans h
      rfl
  | _ =>
    refine (congrArg State.key (apply_eq_self_of_exec_next (ρ := { key := some s.key }) ?_ rfl h)).symm
    simp [Overwrite.Spares]

/-! ### The cycle and the host -/

/-- A cycle that completes ran its instruction, then stepped both timers: each is one down, floored at zero (R94). -/
theorem step_next_timers (h : step s = .next t) : ∃ w u, s.fetch = .ok w ∧ exec (decode w) (s.advance w) = .next u ∧
    t.st.toNat = u.st.toNat - 1 ∧ t.dt.toNat = u.dt.toNat - 1 := by
  obtain ⟨w, u, hw, hu, rfl⟩ := step_next_iff.1 h
  exact ⟨w, u, hw, hu, toNat_countDown u.st, toNat_countDown u.dt⟩

theorem step_next_key (h : step s = .next t) : t.key = s.key := by
  obtain ⟨w, u, -, hu, rfl⟩ := step_next_iff.1 h
  rw [State.key_tick, exec_next_key hu, State.key_advance]

/-- What a key write of the host changes (R194). -/
theorem keepsBut_setKeys (s : State) (key : Keys) : KeepsBut [.keypad] s (s.setKeys key) := by
  intro p hp
  cases p with
  | keypad => exact absurd (by decide) hp
  | registers | memory => exact fun _ => rfl
  | _ => rfl

/-! ### The statements -/

/-- Settles O53: the timer's own instructions and the tick by computation, the rest as an overwrite of `DT`. -/
theorem delayTimerHasNoOtherEffect : Obligations.DelayTimerHasNoOtherEffect := by
  refine ⟨fun x s => ⟨_, rfl, rfl⟩, fun x s => ⟨_, rfl, s.getV_setV_same x s.dt⟩, fun s t h => ?_,
    fun i s t h hne => ?_, fun i s b hw hr => exec_apply (spares_dt hw hr b) s⟩
  · obtain ⟨w, u, hw, hu, -, hdt⟩ := step_next_timers h
    exact ⟨w, u, hw, hu, hdt⟩
  · by_contra hw
    exact hne (exec_next_dt (not_exists.1 hw) h)

/-- Settles O54: no instruction but the writer of `ST` meets an overwrite of it, and the writer overwrites it in turn. -/
theorem soundTimerIsReadByNothing : Obligations.SoundTimerIsReadByNothing := by
  refine ⟨fun x s => ⟨_, rfl, rfl⟩, fun s t => step_next_timers, fun i s t h hne => ?_,
    fun i s b hw => exec_apply (spares_st hw b) s, fun x s b => rfl⟩
  by_contra hw
  exact hne (exec_next_st (not_exists.1 hw) h)

/-- Settles O55: the keypad passes through every cycle, the host's write changes it alone, and every instruction but the
three readers is spared by an overwrite of it. -/
theorem keypadIsReadByThreeInstructions : Obligations.KeypadIsReadByThreeInstructions :=
  ⟨fun _ _ => step_next_key, fun s key => ⟨_, rfl, rfl, rfl, keepsBut_setKeys s key⟩,
    fun _ s key hskp hsknp hld => exec_apply (spares_key hskp hsknp hld key) s⟩

/-- Settles O56: the fetch does not look at the old word and the advance writes over it; no instruction writes it again. -/
theorem opcodeIsNotObservable : Obligations.OpcodeIsNotObservable := by
  refine ⟨fun s w => ?_, fun s t h => ?_⟩
  · have hfetch : ({ s with opcode := w } : State).fetch = s.fetch := State.fetch_congr rfl rfl
    unfold step
    rw [hfetch]
    rfl
  · obtain ⟨w, u, hw, hu, rfl⟩ := step_next_iff.1 h
    rw [hw, State.opcode_tick, exec_next_opcode hu, State.opcode_advance]

end Sys2Proof.Machine
end

section
/-! SUPPORT and O59. The engine's order of events and its sticky fault (spec 70_reset_and_hazards.md R193; 10_state.md R37). -/

namespace Sys2Proof.Machine

/-- A faulted engine that accepts an event stays as it is (R37). -/
theorem Engine.accept_faulted {f : Fault} {ev : Event} {e : Engine} (h : Engine.accept (.faulted f) ev = some e) :
    e = .faulted f := by
  cases ev with
  | reset video key seed => cases h
  | romLoad rom => cases h
  | keys key => exact (Option.some.inj h).symm
  | cycle => exact (Option.some.inj h).symm

/-- No events clear a fault. -/
theorem Engine.play_faulted {f : Fault} {evs : List Event} {e : Engine} (h : Engine.play (.faulted f) evs = some e) :
    e = .faulted f := by
  induction evs with
  | nil => exact (Option.some.inj h).symm
  | cons ev evs ih =>
    rw [Engine.play] at h
    split at h
    · cases h
    · next e' he' =>
      rw [Engine.accept_faulted he'] at h
      exact ih h

/-- A cycle request of a running engine is a step (R193). -/
theorem Engine.accept_running_cycle (s : State) : Engine.accept (.running s) .cycle = Engine.after (step s) := rfl

/-- Settles O59: the events an engine refuses are read off its phase, and a fault outlasts any list of events. -/
theorem engineTakesEventsInOrder : Obligations.EngineTakesEventsInOrder := by
  refine ⟨fun _ _ _ => rfl, fun e _ _ _ h => ?_, fun e _ h => ?_, fun e h => ?_, fun s t h => ?_, fun s f h => ?_,
    fun _ _ _ => Engine.play_faulted⟩
  · cases e with
    | absent => rfl
    | constructed s | running s | faulted f => exact absurd rfl h
  · cases e with
    | constructed s => exact ⟨s, rfl⟩
    | absent | running s | faulted f => exact absurd rfl h
  · cases e with
    | running s => exact .inl ⟨s, rfl⟩
    | faulted f => exact .inr ⟨f, rfl⟩
    | absent | constructed s => exact absurd rfl h
  · rw [Engine.accept_running_cycle, h]
    rfl
  · rw [Engine.accept_running_cycle, h]
    rfl

end Sys2Proof.Machine
end

section
/-! SUPPORT and O6. What the byte decoder answers, by the number of bytes it is given (spec 30_encoding.md R70; log 32). -/

namespace Sys2Proof

/-- Two bytes hold the instruction of the word they make, high byte first (R54, R70); what follows them is left over. -/
theorem decodeBytes_cons_cons (hi lo : Byte) (rest : List Byte) :
    decodeBytes (hi :: lo :: rest) = .ok (decode (hi ++ lo), rest) := rfl

/-- One byte holds no instruction, whichever byte it is (log 32). -/
theorem decodeBytes_singleton (b : Byte) : decodeBytes [b] = .error (.truncated 1) := rfl

/-- The two bytes of a word, and nothing else, decode to the instruction the dispatch gives that word. -/
theorem decodeBytes_pair {hi lo : Byte} {w : Word} {i : Instr} (hw : hi ++ lo = w) (hd : decodeTableKeyed w = i) :
    decodeBytes [hi, lo] = .ok (i, []) := by
  rw [decodeBytes_cons_cons, hw, Machine.decode_eq, hd]

/-- Settles O6: each pair of bytes is put together to its word, which is looked up in the dispatch; a lone byte is no
pair. -/
theorem specWordsDecode : Obligations.SpecWordsDecode :=
  ⟨decodeBytes_pair (w := 0x00E0) rfl rfl, decodeBytes_pair (w := 0x6005) rfl rfl,
    decodeBytes_pair (w := 0x7003) rfl rfl, decodeBytes_pair (w := 0x1200) rfl rfl,
    decodeBytes_pair (w := 0x8124) rfl rfl, decodeBytes_pair (w := 0xD125) rfl rfl,
    decodeBytes_pair (w := 0xE19E) rfl rfl, decodeBytes_pair (w := 0xF165) rfl rfl,
    decodeBytes_pair (w := 0xF1E5) rfl rfl, decodeBytes_singleton 0xF4⟩

end Sys2Proof
end

section
/-! SUPPORT and O7. A cycle that is known by the two bytes at `pc`: what it fetches, what its instruction starts from, and
what follows the instruction (spec 40_cycle_and_dispatch.md R90 to R92, R94). -/

namespace Sys2Proof.Machine

variable {s : State}

/-- The fetch puts the two bytes at `pc` together, high byte first (R54, R91). -/
theorem State.fetch_of_memRead {hi lo : Byte} (hhi : s.memRead s.pc.toNat = .ok hi)
    (hlo : s.memRead (s.pc.toNat + 1) = .ok lo) : s.fetch = .ok (hi ++ lo) := by
  unfold State.fetch
  rw [hhi, hlo]

/-- A word of two bytes as a number. -/
theorem toNat_append_byte (hi lo : Byte) : (hi ++ lo).toNat = hi.toNat * 256 + lo.toNat := by
  rw [BitVec.toNat_append, ← Nat.shiftLeft_add_eq_or_of_lt lo.isLt, Nat.shiftLeft_eq]

/-- The program counter moves on by 2 and wraps at 16 bits (R92). -/
theorem State.toNat_pc_advance (s : State) (w : Word) : (s.advance w).pc.toNat = (s.pc.toNat + 2) % 65536 :=
  BitVec.toNat_add s.pc 2

/-- Settles O7: the two bytes are the fetched word, so the cycle is that word's instruction on the advanced state, and
then the timers. -/
theorem cycleRunsDecodedInstruction : Obligations.CycleRunsDecodedInstruction := by
  intro s hi lo i hhi hlo hdec
  have hfetch := State.fetch_of_memRead hhi hlo
  obtain rfl : decode (hi ++ lo) = i := congrArg Prod.fst (Except.ok.inj hdec)
  refine ⟨_, rfl, s.toNat_pc_advance _, toNat_append_byte hi lo, keepsBut_advance s _, s.mem_advance _,
    fun t ht => ?_, fun f hf => ?_⟩
  · have hstep : step s = .next t.tick := step_next_iff.2 ⟨_, t, hfetch, ht, rfl⟩
    exact ⟨t.tick, hstep, toNat_countDown t.dt, toNat_countDown t.st, keepsBut_tick t, t.mem_tick⟩
  · exact step_fault_iff.2 (.inr ⟨_, hfetch, hf⟩)

end Sys2Proof.Machine
end

section
/-! SUPPORT and O26. The unmapped words: the dispatch has no handler for exactly these, and the cycle of one is an advance
and a tick (spec 30_encoding.md R73 to R75, R79; 40_cycle_and_dispatch.md R96). -/

namespace Sys2Proof

variable (w : Word)

/-! ### The dispatch keys as numbers -/

theorem family_toNat : (family w).toNat = w.toNat / 4096 := by
  have hlt := w.isLt
  simp only [family, BitVec.extractLsb'_toNat, Nat.shiftRight_eq_div_pow, Nat.reducePow]
  omega

theorem family_eq_iff (f : BitVec 4) : family w = f ↔ w.toNat / 4096 = f.toNat := by
  rw [← BitVec.toNat_inj, family_toNat]

theorem fieldN_eq_iff (n : BitVec 4) : fieldN w = n ↔ w.toNat % 16 = n.toNat := by
  rw [← BitVec.toNat_inj, fieldN_toNat]

theorem fieldKK_eq_iff (kk : Byte) : fieldKK w = kk ↔ w.toNat % 256 = kk.toNat := by
  rw [← BitVec.toNat_inj, fieldKK_toNat]

/-! ### Where a table falls through to its default -/

/-- A row of the dispatch that answers no no-op stands above one only where its key does not match. -/
theorem ite_eq_nop_iff {w} {c : Prop} [Decidable c] {i j : Instr} (hi : i ≠ .nop w) :
    (if c then i else j) = .nop w ↔ ¬ c ∧ j = .nop w := by
  by_cases hc : c <;> simp [hc, hi]

theorem decodeTable0_eq_nop_iff : decodeTable0 w = .nop w ↔ w.toNat % 16 ≠ 0x0 ∧ w.toNat % 16 ≠ 0xE := by
  simp [decodeTable0, ite_eq_nop_iff, fieldN_eq_iff]

theorem decodeTable8_eq_nop_iff : decodeTable8 w = .nop w ↔ 8 ≤ w.toNat % 16 ∧ w.toNat % 16 ≠ 0xE := by
  simp only [decodeTable8, fieldN_eq_iff, BitVec.toNat_ofNat, Nat.reducePow, Nat.zero_mod, Nat.one_mod, Nat.reduceMod,
    ne_eq, reduceCtorEq, not_false_eq_true, ite_eq_nop_iff, ite_eq_right_iff, imp_false]
  omega

theorem decodeTableE_eq_nop_iff : decodeTableE w = .nop w ↔ w.toNat % 16 ≠ 0x1 ∧ w.toNat % 16 ≠ 0xE := by
  simp [decodeTableE, ite_eq_nop_iff, fieldN_eq_iff]

theorem decodeTableF_eq_nop_iff : decodeTableF w = .nop w ↔
    w.toNat % 256 ∉ [0x07, 0x0A, 0x15, 0x18, 0x1E, 0x29, 0x33, 0x55, 0x65] := by
  simp [decodeTableF, ite_eq_nop_iff, fieldKK_eq_iff]

/-- The listed words are those without a handler: none outside families 0, 8, E and F, and in each of these four what its
secondary table lets through (R75, R79, R96). -/
theorem unmapped_iff_decode_eq_nop : unmapped w = true ↔ decode w = .nop w := by
  rw [Machine.decode_eq]
  simp only [unmapped, decodeTableKeyed, family_eq_iff]
  by_cases h0 : w.toNat / 4096 = 0
  · simp [h0, decodeTable0_eq_nop_iff]
  by_cases h8 : w.toNat / 4096 = 8
  · simp [h8, decodeTable8_eq_nop_iff]
  by_cases hE : w.toNat / 4096 = 0xE
  · simp [hE, decodeTableE_eq_nop_iff]
  by_cases hF : w.toNat / 4096 = 0xF
  · simp [hF, decodeTableF_eq_nop_iff]
  · have hlt := w.isLt
    simp only [h0, h8, hE, hF, ↓reduceIte, BitVec.toNat_ofNat, Nat.reducePow, Nat.zero_mod, Nat.one_mod, Nat.reduceMod,
      ne_eq, reduceCtorEq, not_false_eq_true, ite_eq_nop_iff, Bool.false_eq_true, false_iff, not_and]
    omega

namespace Machine

variable {w} {s : State}

/-- The no-op changes nothing (R96). -/
theorem exec_nop (w : Word) (s : State) : exec (.nop w) s = .next s := rfl

/-- The cycle of an unmapped word is an advance and a tick (R96). -/
theorem step_of_unmapped (hw : unmapped w = true) (hf : s.fetch = .ok w) : step s = .next (s.advance w).tick := by
  rw [step_of_fetch hf, (unmapped_iff_decode_eq_nop w).1 hw, exec_nop]
  rfl

/-- What an advance and a tick change together. -/
theorem keepsBut_tick_advance (s : State) (w : Word) :
    KeepsBut [.counter, .word, .delayTimer, .soundTimer] s (s.advance w).tick :=
  keepsBut_trans (keepsBut_mono (by simp) (keepsBut_advance s w)) (keepsBut_mono (by simp) (keepsBut_tick _))

/-- Settles O26: an unmapped word falls through the dispatch, and its cycle has no part but the advance and the tick. -/
theorem unmappedWordsDoNothing : Obligations.UnmappedWordsDoNothing :=
  ⟨fun w => (unmapped_iff_decode_eq_nop w).1, fun w s => ⟨s, exec_nop w s, rfl, keepsBut_refl [] s⟩,
    fun w s hw hf => ⟨_, step_of_unmapped hw hf, s.toNat_pc_advance w, toNat_countDown s.dt, toNat_countDown s.st, rfl,
      keepsBut_tick_advance s w⟩⟩

end Machine

end Sys2Proof
end

section
/-! SUPPORT and O19. The jump: its word both ways, its meaning, the fault its target can lead to, and the cycle of a jump to
its own address (spec 41_control_flow.md R100; 40_cycle_and_dispatch.md R91; 70_reset_and_hazards.md R192). -/

namespace Sys2Proof

/-! ### Words of format NNN -/

/-- A word of format NNN as a number (R71). -/
theorem encodeNNN_toNat (op : BitVec 4) (nnn : BitVec 12) :
    (encodeNNN op nnn).toNat = 4096 * op.toNat + nnn.toNat := by
  rw [encodeNNN, BitVec.toNat_append, ← Nat.shiftLeft_add_eq_or_of_lt nnn.isLt, Nat.shiftLeft_eq, Nat.mul_comm]

theorem family_encodeNNN (op : BitVec 4) (nnn : BitVec 12) : family (encodeNNN op nnn) = op := by
  rw [family_eq_iff, encodeNNN_toNat]
  omega

theorem fieldNNN_encodeNNN (op : BitVec 4) (nnn : BitVec 12) : fieldNNN (encodeNNN op nnn) = nnn := by
  apply BitVec.eq_of_toNat_eq
  rw [fieldNNN_toNat, encodeNNN_toNat]
  omega

/-- The mask of format NNN keeps the family nibble. -/
theorem family_and_familyMask (w : Word) : family (w &&& 0xF000) = family w := by
  rw [family, BitVec.extractLsb'_and]
  exact BitVec.and_allOnes

/-! ### The word of a jump -/

theorem decode_of_family_eq_one {w : Word} (h : family w = 0x1) : decode w = .jp (fieldNNN w) := by
  simp [Machine.decode_eq, decodeTableKeyed, h]

theorem decode_encode_jp (nnn : BitVec 12) : decode (encode (.jp nnn)) = .jp nnn := by
  rw [encode, decode_of_family_eq_one (family_encodeNNN _ _), fieldNNN_encodeNNN]

/-- Every word under the match and mask of the jump is a jump (R76, R100). -/
theorem decode_of_jp_selectedBy {w : Word} (h : w &&& 0xF000 = 0x1000) : decode w = .jp (fieldNNN w) := by
  apply decode_of_family_eq_one
  rw [← family_and_familyMask, h]
  rfl

namespace Machine

variable {s t : State} {nnn : BitVec 12}

/-! ### The meaning, and the fetch that follows it -/

/-- What a write of the program counter changes. -/
theorem keepsBut_setPc (s : State) (w : Word) : KeepsBut [.counter] s (s.setPc w) := by
  intro p hp
  cases p with
  | counter => exact absurd (by decide) hp
  | registers | memory => exact fun _ => rfl
  | _ => rfl

/-- The jump writes its address into `pc` and has no other effect (R100). -/
theorem exec_jp (nnn : BitVec 12) (s : State) : exec (.jp nnn) s = .next (s.setPc (addressOf nnn)) := rfl

/-- With `pc` at the last byte of memory the next cycle has no second byte to fetch (R91). -/
theorem step_of_pc_eq_last (h : s.pc.toNat = 0xFFF) : step s = .fault (.memOutOfRange 0x1000) := by
  refine step_fault_iff.2 (.inl ?_)
  rw [State.fetch_of_ge (by rw [h, memSize_eq]), h]
  rfl

/-! ### A jump to its own address -/

/-- A part that reads the same need not be among the parts that may change. -/
theorem keepsBut_of_same {p : Part} {parts : List Part} (h : KeepsBut (p :: parts) s t) (hp : Part.same s t p) :
    KeepsBut parts s t := by
  intro q hq
  by_cases hqp : q = p
  · rw [hqp]
    exact hp
  · exact h q (by simp [hqp, hq])

/-- The cycle of a jump: advance, the jump, tick (R90, R100). -/
theorem step_of_fetch_jp (hf : s.fetch = .ok (encode (.jp nnn))) :
    step s = .next ((s.advance (encode (.jp nnn))).setPc (addressOf nnn)).tick := by
  rw [step_of_fetch hf, decode_encode_jp, exec_jp]
  rfl

/-- What the cycle of a jump changes. -/
theorem keepsBut_tick_setPc_advance (s : State) (w a : Word) :
    KeepsBut [.counter, .word, .delayTimer, .soundTimer] s ((s.advance w).setPc a).tick :=
  have hadvance := keepsBut_mono (by simp) (keepsBut_advance s w)
  have hjump := keepsBut_mono (by simp) (keepsBut_setPc (s.advance w) a)
  have htick := keepsBut_mono (by simp) (keepsBut_tick ((s.advance w).setPc a))
  keepsBut_trans (keepsBut_trans hadvance hjump) htick

/-- A jump to its own address comes back to itself: `pc` and memory are as before, so the next fetch reads the same jump
(R100, R192). -/
theorem step_of_atSelfJump (h : s.atSelfJump) : ∃ t, step s = .next t ∧ t.atSelfJump ∧ t.mem = s.mem ∧
    KeepsBut [.word, .delayTimer, .soundTimer] s t := by
  obtain ⟨nnn, hf, hpc⟩ := h
  refine ⟨_, step_of_fetch_jp hf, ⟨nnn, ?_, rfl⟩, rfl,
    keepsBut_of_same (keepsBut_tick_setPc_advance s _ _) hpc.symm⟩
  rw [← hf]
  exact State.fetch_congr rfl hpc.symm

/-- Settles O19: a word of the jump's row decodes to the jump and the jump encodes into the row, the meaning is one write of
`pc`, and a jump to its own address returns to it. -/
theorem jumpGoesToItsAddress : Obligations.JumpGoesToItsAddress := by
  refine ⟨fun w hw => ⟨_, decode_of_jp_selectedBy hw, fieldNNN_toNat w⟩,
    fun nnn => ⟨Laws.RowMatch.jp nnn, encodeNNN_toNat 0x1 nnn⟩,
    fun nnn s => ⟨_, exec_jp nnn s, addressOf_toNat nnn, rfl, keepsBut_setPc s _, ?_⟩, fun _ => step_of_atSelfJump⟩
  rintro rfl
  exact step_of_pc_eq_last rfl

end Machine

end Sys2Proof
end

section
/-! SUPPORT and O27. The load of an immediate: its word both ways, and its meaning as one register write (spec
42_data_movement.md R110; 30_encoding.md R71, R76). -/

namespace Sys2Proof

/-! ### Words of format XKK -/

/-- A word of format XKK as a number (R71). -/
theorem encodeXKK_toNat (op : BitVec 4) (x : Reg) (kk : Byte) :
    (encodeXKK op x kk).toNat = 4096 * op.toNat + x.val * 256 + kk.toNat := by
  have hx : (regField x).toNat = x.val := rfl
  rw [encodeXKK, BitVec.toNat_append, ← Nat.shiftLeft_add_eq_or_of_lt kk.isLt, BitVec.toNat_append,
    ← Nat.shiftLeft_add_eq_or_of_lt (regField x).isLt, hx, Nat.shiftLeft_eq, Nat.shiftLeft_eq]
  omega

/-- Every word under the match and mask of the load is the load of its own fields (R76, R110). -/
theorem decode_of_ldImm_selectedBy {w : Word} (h : w &&& 0xF000 = 0x6000) :
    decode w = .ldImm (fieldX w) (fieldKK w) := by
  have hfamily : family w = 0x6 := by
    rw [← family_and_familyMask, h]
    rfl
  simp [Machine.decode_eq, decodeTableKeyed, hfamily]

namespace Machine

/-- What a register write changes. -/
theorem keepsBut_setV (s : State) (r : Reg) (b : Byte) : KeepsBut [.registers] s (s.setV r b) := by
  intro p hp
  cases p with
  | registers => exact absurd (by decide) hp
  | memory => exact fun _ => rfl
  | _ => rfl

/-- Which registers a register write changes. -/
theorem regsKeptBut_setV (s : State) (r : Reg) (b : Byte) : RegsKeptBut [r] s (s.setV r b) :=
  fun _ hq => s.getV_setV_other (List.ne_of_not_mem_cons hq) b

/-- The load writes its immediate into its register and has no other effect (R110). -/
theorem exec_ldImm (x : Reg) (kk : Byte) (s : State) : exec (.ldImm x kk) s = .next (s.setV x kk) := rfl

/-- Settles O27: a word of the load's row decodes to the load of its fields, the load encodes to the number of its row
and fields, and the meaning is one register write. -/
theorem loadImmediateSetsRegister : Obligations.LoadImmediateSetsRegister :=
  ⟨fun w hw => ⟨_, _, decode_of_ldImm_selectedBy hw, fieldX_val w, fieldKK_toNat w⟩, encodeXKK_toNat 0x6,
    fun x kk s => ⟨_, exec_ldImm x kk s, s.getV_setV_same x kk, regsKeptBut_setV s x kk, s.mem_setV x kk,
      keepsBut_setV s x kk⟩⟩

end Machine

end Sys2Proof
end

section
/-! SUPPORT and O32. The addition of an immediate: its word both ways, and its meaning as one register write of the wrapped
sum (spec 43_arithmetic_logic.md R121; 30_encoding.md R71, R76). -/

namespace Sys2Proof

/-- A word has the family of its match: the mask `0xF000` keeps the family nibble (R76). -/
theorem family_eq_of_and_familyMask {w m : Word} (h : w &&& 0xF000 = m) : family w = family m := by
  rw [← family_and_familyMask, h]

/-- Every word under the match and mask of the addition is the addition of its own fields (R76, R121). -/
theorem decode_of_addImm_selectedBy {w : Word} (h : w &&& 0xF000 = 0x7000) :
    decode w = .addImm (fieldX w) (fieldKK w) := by
  have hfamily : family w = 0x7 := family_eq_of_and_familyMask h
  simp [Machine.decode_eq, decodeTableKeyed, hfamily]

namespace Machine

/-- The addition writes the sum into its register and has no other effect (R121). -/
theorem exec_addImm (x : Reg) (kk : Byte) (s : State) : exec (.addImm x kk) s = .next (s.setV x (s.getV x + kk)) := rfl

/-- The register written with a sum of bytes holds the sum modulo 256. -/
theorem toNat_getV_setV_add (s : State) (x : Reg) (a b : Byte) :
    ((s.setV x (a + b)).getV x).toNat = (a.toNat + b.toNat) % 256 := by
  rw [s.getV_setV_same x, BitVec.toNat_add]

/-- Settles O32: a word of the addition's row decodes to the addition of its fields, the addition encodes to the number of
its row and fields, and the meaning is one register write of a sum of bytes. -/
theorem addImmediateWraps : Obligations.AddImmediateWraps :=
  ⟨fun w hw => ⟨_, _, decode_of_addImm_selectedBy hw, fieldX_val w, fieldKK_toNat w⟩, encodeXKK_toNat 0x7,
    fun x kk s => ⟨_, exec_addImm x kk s, toNat_getV_setV_add s x _ kk, regsKeptBut_setV s x _, s.mem_setV x _,
      keepsBut_setV s x _⟩⟩

end Machine

end Sys2Proof
end

section
/-! SUPPORT and O60. The random source: its one reader, and that no cycle resets it (spec 44_bcd_random.md R133, R134). -/

namespace Sys2Proof.Machine

variable {i : Instr} {s t : State}

/-! ### What the random draw does -/

/-- `RND` draws the run's next byte, masks it into its register and has no other effect (R133). -/
theorem exec_rnd (x : Reg) (kk : Byte) (s : State) :
    exec (.rnd x kk) s = .next (s.countDraw.setV x (Config.freeByte s.seed s.draws &&& kk)) := rfl

/-- What a draw uses up. -/
theorem keepsBut_countDraw (s : State) : KeepsBut [.drawn] s s.countDraw := by
  intro p hp
  cases p with
  | drawn => exact absurd (by decide) hp
  | registers | memory => exact fun _ => rfl
  | _ => rfl

/-- What another random source changes. -/
theorem keepsBut_setSource (s : State) (seed draws : Nat) : KeepsBut [.source, .drawn] s (s.setSource seed draws) := by
  intro p hp
  cases p with
  | source | drawn => exact absurd (by decide) hp
  | registers | memory => exact fun _ => rfl
  | _ => rfl

/-- A draw from another source, written to a register, changes the registers and the source. -/
theorem keepsBut_setV_countDraw_setSource (s : State) (seed draws : Nat) (x : Reg) (b : Byte) :
    KeepsBut [.registers, .source, .drawn] s ((s.setSource seed draws).countDraw.setV x b) :=
  have hsource := keepsBut_mono (by simp) (keepsBut_setSource s seed draws)
  have hdraw := keepsBut_mono (by simp) (keepsBut_countDraw (s.setSource seed draws))
  have hwrite := keepsBut_mono (by simp) (keepsBut_setV (s.setSource seed draws).countDraw x b)
  keepsBut_trans (keepsBut_trans hsource hdraw) hwrite

/-! ### What the other instructions and the cycle leave of the source -/

/-- Every instruction but `RND` is spared by another seed and another count. -/
theorem spares_source (hr : ∀ x kk, i ≠ .rnd x kk) (seed draws : Nat) :
    Overwrite.Spares { seed := some seed, draws := some draws } i := by
  cases i with
  | rnd x kk => exact absurd rfl (hr x kk)
  | _ => simp [Overwrite.Spares]

/-- No instruction changes the seed, and none takes a draw back: `RND` adds one draw and the others keep the count. -/
theorem exec_next_source (h : exec i s = .next t) : t.seed = s.seed ∧ s.draws ≤ t.draws := by
  by_cases hr : ∃ x kk, i = .rnd x kk
  · obtain ⟨x, kk, rfl⟩ := hr
    rw [exec_rnd] at h
    cases h
    exact ⟨rfl, Nat.le_succ s.draws⟩
  · have hspares := spares_source (fun x kk hi => hr ⟨x, kk, hi⟩) s.seed s.draws
    have hsame := apply_eq_self_of_exec_next hspares rfl h
    exact ⟨(congrArg State.seed hsame).symm, (congrArg State.draws hsame).le⟩

/-- The advance and the tick leave the source, so a cycle does to it what its instruction does. -/
theorem step_next_source (h : step s = .next t) : t.seed = s.seed ∧ s.draws ≤ t.draws := by
  obtain ⟨w, u, -, hu, rfl⟩ := step_next_iff.1 h
  simpa using exec_next_source hu

/-- Settles O60: the other instructions are spared by an overwrite of the source, `RND` is one draw and one register write,
and a cycle does to the source what its instruction does. -/
theorem randomSourceIsReadOnlyByRnd : Obligations.RandomSourceIsReadOnlyByRnd :=
  ⟨fun _ s seed draws hr => exec_apply (spares_source hr seed draws) s,
    fun x kk s seed draws => ⟨_, exec_rnd x kk (s.setSource seed draws), State.getV_setV_same _ x _, rfl, rfl,
      regsKeptBut_setV (s.setSource seed draws).countDraw x _, keepsBut_setV_countDraw_setSource s seed draws x _⟩,
    fun _ _ => step_next_source⟩

end Sys2Proof.Machine
end

section
/-! SUPPORT and O1, O2, O3, O5. The dispatch as a table of rows: the key that selects each row, the match and mask that say
the same of a word, and the fields of an encoded word (spec 30_encoding.md R71 to R79). -/

namespace Sys2Proof

variable {w : Word}

/-! ### The fields of words of formats XKK and XYN -/

@[simp] theorem family_encodeXKK (op : BitVec 4) (x : Reg) (kk : Byte) : family (encodeXKK op x kk) = op := by
  rw [family_eq_iff, encodeXKK_toNat]
  omega

@[simp] theorem fieldX_encodeXKK (op : BitVec 4) (x : Reg) (kk : Byte) : fieldX (encodeXKK op x kk) = x := by
  apply Fin.ext
  rw [fieldX_val, encodeXKK_toNat]
  omega

@[simp] theorem fieldKK_encodeXKK (op : BitVec 4) (x : Reg) (kk : Byte) : fieldKK (encodeXKK op x kk) = kk := by
  rw [fieldKK_eq_iff, encodeXKK_toNat]
  omega

@[simp] theorem fieldN_encodeXKK (op : BitVec 4) (x : Reg) (kk : Byte) :
    fieldN (encodeXKK op x kk) = kk.extractLsb' 0 4 := by
  have hkk : (kk.extractLsb' 0 4).toNat = kk.toNat % 16 := by simp
  rw [fieldN_eq_iff, encodeXKK_toNat, hkk]
  omega

/-- A word of format XY or XYN as a number (R71). -/
theorem encodeXYN_toNat (op : BitVec 4) (x y : Reg) (n : BitVec 4) :
    (encodeXYN op x y n).toNat = 4096 * op.toNat + x.val * 256 + y.val * 16 + n.toNat := by
  have hxkk : encodeXYN op x y n = encodeXKK op x (regField y ++ n) := BitVec.append_assoc
  have hy : (regField y).toNat = y.val := rfl
  rw [hxkk, encodeXKK_toNat, BitVec.toNat_append, ← Nat.shiftLeft_add_eq_or_of_lt n.isLt, hy, Nat.shiftLeft_eq]
  omega

@[simp] theorem family_encodeXYN (op : BitVec 4) (x y : Reg) (n : BitVec 4) : family (encodeXYN op x y n) = op := by
  rw [family_eq_iff, encodeXYN_toNat]
  omega

@[simp] theorem fieldX_encodeXYN (op : BitVec 4) (x y : Reg) (n : BitVec 4) : fieldX (encodeXYN op x y n) = x := by
  apply Fin.ext
  rw [fieldX_val, encodeXYN_toNat]
  omega

@[simp] theorem fieldY_encodeXYN (op : BitVec 4) (x y : Reg) (n : BitVec 4) : fieldY (encodeXYN op x y n) = y := by
  apply Fin.ext
  rw [fieldY_val, encodeXYN_toNat]
  omega

@[simp] theorem fieldN_encodeXYN (op : BitVec 4) (x y : Reg) (n : BitVec 4) : fieldN (encodeXYN op x y n) = n := by
  rw [fieldN_eq_iff, encodeXYN_toNat]
  omega

/-- A word is the word of format NNN of its own fields (R71, R72). -/
theorem encodeNNN_eq {f : BitVec 4} {nnn : BitVec 12} (hf : family w = f) (hnnn : fieldNNN w = nnn) :
    encodeNNN f nnn = w := by
  subst hf hnnn
  apply BitVec.eq_of_toNat_eq
  rw [encodeNNN_toNat, family_toNat, fieldNNN_toNat]
  omega

/-- A word is the word of format XKK of its own fields (R71, R72). -/
theorem encodeXKK_eq {f : BitVec 4} {x : Reg} {kk : Byte} (hf : family w = f) (hx : fieldX w = x)
    (hkk : fieldKK w = kk) : encodeXKK f x kk = w := by
  subst hf hx hkk
  apply BitVec.eq_of_toNat_eq
  rw [encodeXKK_toNat, family_toNat, fieldX_val, fieldKK_toNat]
  omega

/-- A word is the word of format XYN of its own fields (R71, R72). -/
theorem encodeXYN_eq {f n : BitVec 4} {x y : Reg} (hf : family w = f) (hx : fieldX w = x) (hy : fieldY w = y)
    (hn : fieldN w = n) : encodeXYN f x y n = w := by
  subst hf hx hy hn
  apply BitVec.eq_of_toNat_eq
  rw [encodeXYN_toNat, family_toNat, fieldX_val, fieldY_val, fieldN_toNat]
  omega

/-! ### The masks of the opcode map read a word's dispatch keys -/

theorem family_iff_familyMask (w : Word) (f : BitVec 4) : family w = f ↔ w &&& 0xF000 = encodeXKK f 0 0 := by
  have hmask : w &&& 0xF000 = encodeXKK (family w) 0 0 := by
    conv_lhs => rw [← encodeXKK_eq (w := w) rfl rfl rfl]
    exact Laws.RowMatch.encodeXKK_match _ _ _
  rw [hmask]
  exact ⟨fun h => by rw [h], fun h => by simpa using congrArg family h⟩

theorem family_fieldN_iff_nibbleMask (w : Word) (f n : BitVec 4) :
    family w = f ∧ fieldN w = n ↔ w &&& 0xF00F = encodeXYN f 0 0 n := by
  have hmask : w &&& 0xF00F = encodeXYN (family w) 0 0 (fieldN w) := by
    conv_lhs => rw [← encodeXYN_eq (w := w) rfl rfl rfl rfl]
    exact Laws.RowMatch.encodeXYN_matchNibble _ _ _ _
  rw [hmask]
  exact ⟨fun ⟨hf, hn⟩ => by rw [hf, hn], fun h => ⟨by simpa using congrArg family h, by simpa using congrArg fieldN h⟩⟩

theorem family_fieldKK_iff_byteMask (w : Word) (f : BitVec 4) (kk : Byte) :
    family w = f ∧ fieldKK w = kk ↔ w &&& 0xF0FF = encodeXKK f 0 kk := by
  have hmask : w &&& 0xF0FF = encodeXKK (family w) 0 (fieldKK w) := by
    conv_lhs => rw [← encodeXKK_eq (w := w) rfl rfl rfl]
    exact Laws.RowMatch.encodeXKK_matchByte _ _ _
  rw [hmask]
  exact ⟨fun ⟨hf, hkk⟩ => by rw [hf, hkk],
    fun h => ⟨by simpa using congrArg family h, by simpa using congrArg fieldKK h⟩⟩

/-! ### The key of a row -/

/-- The dispatch keys that select the row of an instruction: the family and, in the four families with a secondary table,
the low nibble or the low byte (R73 to R75). The default row has no key. -/
def Instr.HasKey (w : Word) : Instr → Prop
  | .cls => family w = 0x0 ∧ fieldN w = 0x0
  | .ret => family w = 0x0 ∧ fieldN w = 0xE
  | .jp _ => family w = 0x1
  | .call _ => family w = 0x2
  | .seImm _ _ => family w = 0x3
  | .sneImm _ _ => family w = 0x4
  | .seReg _ _ => family w = 0x5
  | .ldImm _ _ => family w = 0x6
  | .addImm _ _ => family w = 0x7
  | .ldReg _ _ => family w = 0x8 ∧ fieldN w = 0x0
  | .orReg _ _ => family w = 0x8 ∧ fieldN w = 0x1
  | .andReg _ _ => family w = 0x8 ∧ fieldN w = 0x2
  | .xorReg _ _ => family w = 0x8 ∧ fieldN w = 0x3
  | .addReg _ _ => family w = 0x8 ∧ fieldN w = 0x4
  | .sub _ _ => family w = 0x8 ∧ fieldN w = 0x5
  | .shr _ _ => family w = 0x8 ∧ fieldN w = 0x6
  | .subn _ _ => family w = 0x8 ∧ fieldN w = 0x7
  | .shl _ _ => family w = 0x8 ∧ fieldN w = 0xE
  | .sneReg _ _ => family w = 0x9
  | .ldI _ => family w = 0xA
  | .jpV0 _ => family w = 0xB
  | .rnd _ _ => family w = 0xC
  | .drw _ _ _ => family w = 0xD
  | .skp _ => family w = 0xE ∧ fieldN w = 0xE
  | .sknp _ => family w = 0xE ∧ fieldN w = 0x1
  | .ldFromDT _ => family w = 0xF ∧ fieldKK w = 0x07
  | .ldKey _ => family w = 0xF ∧ fieldKK w = 0x0A
  | .ldToDT _ => family w = 0xF ∧ fieldKK w = 0x15
  | .ldToST _ => family w = 0xF ∧ fieldKK w = 0x18
  | .addI _ => family w = 0xF ∧ fieldKK w = 0x1E
  | .ldFont _ => family w = 0xF ∧ fieldKK w = 0x29
  | .ldBcd _ => family w = 0xF ∧ fieldKK w = 0x33
  | .storeRegs _ => family w = 0xF ∧ fieldKK w = 0x55
  | .loadRegs _ => family w = 0xF ∧ fieldKK w = 0x65
  | .nop _ => True

/-- A row's match and mask select exactly the words with the row's key (R76). -/
theorem hasKey_iff_selectedBy (i : Instr) (w : Word) : i.HasKey w ↔ i.selectedBy w := by
  cases i with
  | nop u => simp [Instr.selectedBy, Instr.matchMask, Instr.HasKey]
  | jp | call | seImm | sneImm | seReg | ldImm | addImm | sneReg | ldI | jpV0 | rnd | drw =>
    exact family_iff_familyMask w _
  | cls | ret | ldReg | orReg | andReg | xorReg | addReg | sub | shr | subn | shl | skp | sknp =>
    exact family_fieldN_iff_nibbleMask w _ _
  | ldFromDT | ldKey | ldToDT | ldToST | addI | ldFont | ldBcd | storeRegs | loadRegs =>
    exact family_fieldKK_iff_byteMask w _ _

/-- A branch of the dispatch has its row's key if each side has under its own condition. -/
theorem Instr.HasKey.ite {c : Prop} [Decidable c] {i j : Instr} (hi : c → i.HasKey w) (hj : ¬ c → j.HasKey w) :
    (if c then i else j).HasKey w := by
  split
  · next hc => exact hi hc
  · next hc => exact hj hc

/-- Each secondary table takes a row whose key the word has, where the family is the table's (R75). -/
theorem hasKey_secondary (w : Word) :
    (family w = 0x0 → (decodeTable0 w).HasKey w) ∧ (family w = 0x8 → (decodeTable8 w).HasKey w) ∧
      (family w = 0xE → (decodeTableE w).HasKey w) ∧ (family w = 0xF → (decodeTableF w).HasKey w) := by
  unfold decodeTable0 decodeTable8 decodeTableE decodeTableF
  refine ⟨fun hf => ?_, fun hf => ?_, fun hf => ?_, fun hf => ?_⟩
  all_goals
    repeat' refine Instr.HasKey.ite (fun hkey => ⟨hf, hkey⟩) fun _ => ?_
    trivial

/-- The dispatch takes a row whose key the word has (R73). -/
theorem hasKey_decode (w : Word) : (decode w).HasKey w := by
  obtain ⟨table0, table8, tableE, tableF⟩ := hasKey_secondary w
  rw [Machine.decode_eq]
  unfold decodeTableKeyed
  refine .ite table0 fun _ => ?_
  iterate 7 refine .ite id fun _ => ?_
  refine .ite table8 fun _ => ?_
  iterate 5 refine .ite id fun _ => ?_
  refine .ite tableE fun _ => tableF ?_
  bv_omega

/-- The dispatch takes the row of an instruction whose key the word has: no two rows share a key (R73 to R75). -/
theorem matchMask_decode_of_hasKey {i : Instr} (hi : ∀ u, i ≠ .nop u) (h : i.HasKey w) :
    (decode w).matchMask = i.matchMask := by
  rw [Machine.decode_eq, decodeTableKeyed]
  cases i with
  | nop u => exact absurd rfl (hi u)
  | jp | call | seImm | sneImm | seReg | ldImm | addImm | sneReg | ldI | jpV0 | rnd | drw =>
    simp only [Instr.HasKey] at h
    simp [h, Instr.matchMask]
  | cls | ret =>
    obtain ⟨hf, hn⟩ := h
    simp [hf, hn, decodeTable0, Instr.matchMask]
  | ldReg | orReg | andReg | xorReg | addReg | sub | shr | subn | shl =>
    obtain ⟨hf, hn⟩ := h
    simp [hf, hn, decodeTable8, Instr.matchMask]
  | skp | sknp =>
    obtain ⟨hf, hn⟩ := h
    simp [hf, hn, decodeTableE, Instr.matchMask]
  | ldFromDT | ldKey | ldToDT | ldToST | addI | ldFont | ldBcd | storeRegs | loadRegs =>
    obtain ⟨hf, hkk⟩ := h
    simp [hf, hkk, decodeTableF, Instr.matchMask]

/-- Settles O3: match and mask say which dispatch keys a word has, and the dispatch takes the one row with the word's. -/
theorem dispatchFollowsMatchAndMask : Obligations.DispatchFollowsMatchAndMask := fun w =>
  ⟨(hasKey_iff_selectedBy _ w).1 (hasKey_decode w),
    fun i hi hsel => matchMask_decode_of_hasKey hi ((hasKey_iff_selectedBy i w).2 hsel)⟩

/-! ### Encoding and decoding -/

/-- Settles O1: the encoded word has the key of its row and its operands in the fields of its format; the word of a no-op is
unmapped, so that the dispatch has no row for it. -/
theorem decodeOfEncodeIsIdentity : Obligations.DecodeOfEncodeIsIdentity := by
  intro i hi
  cases i with
  | nop w => exact (unmapped_iff_decode_eq_nop w).1 hi
  | jp | call | ldI | jpV0 =>
    simp [Machine.decode_eq, decodeTableKeyed, encode, family_encodeNNN, fieldNNN_encodeNNN]
  | seReg | sneReg | drw => simp [Machine.decode_eq, decodeTableKeyed, encode]
  | seImm | sneImm | ldImm | addImm | rnd => simp [Machine.decode_eq, decodeTableKeyed, encode]
  | cls | ret => rfl
  | ldReg | orReg | andReg | xorReg | addReg | sub | shr | subn | shl =>
    simp [Machine.decode_eq, decodeTableKeyed, decodeTable8, encode]
  | skp | sknp => simp [Machine.decode_eq, decodeTableKeyed, decodeTableE, encode]
  | ldFromDT | ldKey | ldToDT | ldToST | addI | ldFont | ldBcd | storeRegs | loadRegs =>
    simp [Machine.decode_eq, decodeTableKeyed, decodeTableF, encode]

/-! ### The no-op and the unmapped words -/

/-- A branch of the dispatch that answers a no-op answers that of its own word, if both sides do. -/
theorem Instr.eq_of_ite_eq_nop {c : Prop} [Decidable c] {i j : Instr} {u : Word} (hi : i = .nop u → u = w)
    (hj : j = .nop u → u = w) (h : (if c then i else j) = .nop u) : u = w := by
  split at h
  · exact hi h
  · exact hj h

/-- A no-op that the dispatch answers carries the word it was read from (log 28). -/
theorem eq_of_decode_eq_nop {u : Word} : decode w = .nop u → u = w := by
  rw [Machine.decode_eq]
  unfold decodeTableKeyed decodeTable0 decodeTable8 decodeTableE decodeTableF
  repeat' apply Instr.eq_of_ite_eq_nop
  all_goals exact fun h => by cases h <;> rfl

/-- Settles O2: only a no-op could be ill-formed, and the dispatch answers one for the unmapped words alone. -/
theorem everyWordDecodes : Obligations.EveryWordDecodes := by
  refine fun w => ⟨?_, unmapped_iff_decode_eq_nop w⟩
  cases hd : decode w with
  | nop u =>
    obtain rfl := eq_of_decode_eq_nop hd
    exact (unmapped_iff_decode_eq_nop u).2 hd
  | _ => rfl

/-! ### Words that another instruction's word stands for -/

/-- An `aliasWord` is one whose instruction has another word (R78). -/
theorem aliasWord_iff (w : Word) : aliasWord w = true ↔ encode (decode w) ≠ w := by
  simp [aliasWord, Machine.decode_eq]

/-- The two readings differ exactly there: what the exact one refuses is no no-op, whose word would be the word itself
(D1). -/
theorem decodeIn_exact_ne_iff (w : Word) : decodeIn .tableKeyed w ≠ decodeIn .exact w ↔ aliasWord w = true := by
  rw [aliasWord_iff, Machine.decode_eq]
  simp only [decodeIn, decodeExact]
  split
  · next hcanon => simp [hcanon]
  · next halias =>
    refine iff_of_true (fun hnop => halias ?_) halias
    rw [hnop, encode]

/-- In family 0 the handlers answer for every middle byte, and their words have `0x0E` there (R78). -/
theorem encode_decode_ne_iff_of_family_zero (hf : family w = 0x0) (hn : fieldN w = 0x0 ∨ fieldN w = 0xE) :
    encode (decode w) ≠ w ↔ w.toNat / 16 % 256 ≠ 0x0E := by
  have hfamily : w.toNat / 4096 = 0x0 := (family_eq_iff w _).1 hf
  rw [Ne, ← BitVec.toNat_inj]
  rcases hn with hn | hn
  · have hlow : w.toNat % 16 = 0x0 := (fieldN_eq_iff w _).1 hn
    have hd : decode w = .cls := by simp [Machine.decode_eq, decodeTableKeyed, decodeTable0, hf, hn]
    have hcode : (encode .cls).toNat = 0x00E0 := rfl
    rw [hd, hcode]
    omega
  · have hlow : w.toNat % 16 = 0xE := (fieldN_eq_iff w _).1 hn
    have hd : decode w = .ret := by simp [Machine.decode_eq, decodeTableKeyed, decodeTable0, hf, hn]
    have hcode : (encode .ret).toNat = 0x00EE := rfl
    rw [hd, hcode]
    omega

/-- The two skips on registers answer for every low nibble, and their words have 0 there (R78). -/
theorem encode_decode_ne_iff_of_skip (hf : family w = 0x5 ∨ family w = 0x9) :
    encode (decode w) ≠ w ↔ w.toNat % 16 ≠ 0 := by
  have hcode : encode (decode w) = encodeXYN (family w) (fieldX w) (fieldY w) 0 := by
    rcases hf with hf | hf <;> simp [Machine.decode_eq, decodeTableKeyed, encode, hf]
  have hzero : (0 : BitVec 4).toNat = 0 := rfl
  rw [hcode, Ne, ← BitVec.toNat_inj, encodeXYN_toNat, family_toNat, fieldX_val, fieldY_val, hzero]
  omega

/-- The key skips answer for every high nibble of the low byte, and their words have `0x9` and `0xA` there (R78). -/
theorem encode_decode_ne_iff_of_skp (hf : family w = 0xE) (hn : fieldN w = 0xE) :
    encode (decode w) ≠ w ↔ w.toNat / 16 % 16 ≠ 0x9 := by
  have hlow : w.toNat % 16 = 0xE := (fieldN_eq_iff w _).1 hn
  have hcode : encode (decode w) = encodeXKK (family w) (fieldX w) 0x9E := by
    simp [Machine.decode_eq, decodeTableKeyed, decodeTableE, encode, hf, hn]
  have hbyte : (0x9E : Byte).toNat = 0x9E := rfl
  rw [hcode, Ne, ← BitVec.toNat_inj, encodeXKK_toNat, family_toNat, fieldX_val, hbyte]
  omega

theorem encode_decode_ne_iff_of_sknp (hf : family w = 0xE) (hn : fieldN w = 0x1) :
    encode (decode w) ≠ w ↔ w.toNat / 16 % 16 ≠ 0xA := by
  have hlow : w.toNat % 16 = 0x1 := (fieldN_eq_iff w _).1 hn
  have hcode : encode (decode w) = encodeXKK (family w) (fieldX w) 0xA1 := by
    simp [Machine.decode_eq, decodeTableKeyed, decodeTableE, encode, hf, hn]
  have hbyte : (0xA1 : Byte).toNat = 0xA1 := rfl
  rw [hcode, Ne, ← BitVec.toNat_inj, encodeXKK_toNat, family_toNat, fieldX_val, hbyte]
  omega

/-- The rows of which not every word is canonical: those whose key and operands do not make up the whole word (R78). -/
theorem row_of_encode_decode_ne (h : encode (decode w) ≠ w) :
    (family w = 0x0 ∧ (fieldN w = 0x0 ∨ fieldN w = 0xE)) ∨ (family w = 0x5 ∨ family w = 0x9) ∨
      (family w = 0xE ∧ (fieldN w = 0xE ∨ fieldN w = 0x1)) := by
  have hkey := hasKey_decode w
  obtain ⟨hx, hy, hkk, hn, hnnn⟩ := decode_readsFields w
  have hnop (u : Word) : decode w = .nop u → u = w := eq_of_decode_eq_nop
  generalize decode w = i at *
  cases i with
  | nop u => exact absurd (hnop u rfl) h
  | cls => exact .inl ⟨hkey.1, .inl hkey.2⟩
  | ret => exact .inl ⟨hkey.1, .inr hkey.2⟩
  | seReg x y => exact .inr (.inl (.inl hkey))
  | sneReg x y => exact .inr (.inl (.inr hkey))
  | skp x => exact .inr (.inr ⟨hkey.1, .inl hkey.2⟩)
  | sknp x => exact .inr (.inr ⟨hkey.1, .inr hkey.2⟩)
  | jp nnn | call nnn | ldI nnn | jpV0 nnn => exact absurd (encodeNNN_eq hkey hnnn.symm) h
  | seImm x kk | sneImm x kk | ldImm x kk | addImm x kk | rnd x kk =>
    exact absurd (encodeXKK_eq hkey hx.symm hkk.symm) h
  | ldFromDT x | ldKey x | ldToDT x | ldToST x | addI x | ldFont x | ldBcd x | storeRegs x | loadRegs x =>
    exact absurd (encodeXKK_eq hkey.1 hx.symm hkey.2) h
  | ldReg x y | orReg x y | andReg x y | xorReg x y | addReg x y | sub x y | shr x y | subn x y | shl x y =>
    exact absurd (encodeXYN_eq hkey.1 hx.symm hy.symm hkey.2) h
  | drw x y n => exact absurd (encodeXYN_eq hkey hx.symm hy.symm hn.symm) h

/-- Settles O5: only in the rows of six instructions is there a part of the word that is neither key nor operand, and each of
these has its canonical value. -/
theorem aliasWordsAreTheListedOnes : Obligations.AliasWordsAreTheListedOnes := by
  refine fun w => ⟨?_, decodeIn_exact_ne_iff w⟩
  rw [aliasWord_iff]
  have family_iff (f : BitVec 4) := family_eq_iff w f
  have fieldN_iff (n : BitVec 4) := fieldN_eq_iff w n
  constructor
  · intro h
    rcases row_of_encode_decode_ne h with ⟨hf, hn⟩ | hf | ⟨hf, hn | hn⟩
    · exact .inl ⟨(family_iff _).1 hf, hn.imp (fieldN_iff _).1 (fieldN_iff _).1,
        (encode_decode_ne_iff_of_family_zero hf hn).1 h⟩
    · exact .inr (.inl ⟨hf.imp (family_iff _).1 (family_iff _).1, (encode_decode_ne_iff_of_skip hf).1 h⟩)
    · exact .inr (.inr ⟨(family_iff _).1 hf, .inl ⟨(fieldN_iff _).1 hn, (encode_decode_ne_iff_of_skp hf hn).1 h⟩⟩)
    · exact .inr (.inr ⟨(family_iff _).1 hf, .inr ⟨(fieldN_iff _).1 hn, (encode_decode_ne_iff_of_sknp hf hn).1 h⟩⟩)
  · rintro (⟨hf, hn, h⟩ | ⟨hf, h⟩ | ⟨hf, ⟨hn, h⟩ | ⟨hn, h⟩⟩)
    · exact (encode_decode_ne_iff_of_family_zero ((family_iff 0x0).2 hf)
        (hn.imp (fieldN_iff 0x0).2 (fieldN_iff 0xE).2)).2 h
    · exact (encode_decode_ne_iff_of_skip (hf.imp (family_iff 0x5).2 (family_iff 0x9).2)).2 h
    · exact (encode_decode_ne_iff_of_skp ((family_iff 0xE).2 hf) ((fieldN_iff 0xE).2 hn)).2 h
    · exact (encode_decode_ne_iff_of_sknp ((family_iff 0xE).2 hf) ((fieldN_iff 0x1).2 hn)).2 h

end Sys2Proof
end

section
/-! SUPPORT and O14, O38, O51. What each instruction can change, said once as a list of parts: its frame, the registers it
writes, and that it keeps the canonical form of memory (spec 10_state.md R36; 20_memory.md R50). -/

namespace Sys2Proof

/-- The parts of the state that an instruction can change (R36). -/
def Instr.writes : Instr → List Machine.Part
  | .cls => [.screen]
  | .ret => [.counter, .depth]
  | .call _ => [.counter, .returnStack, .depth]
  | .jp _ | .jpV0 _ | .seImm _ _ | .sneImm _ _ | .seReg _ _ | .sneReg _ _ | .skp _ | .sknp _ => [.counter]
  | .ldKey _ => [.counter, .registers]
  | .ldImm _ _ | .addImm _ _ | .ldReg _ _ | .orReg _ _ | .andReg _ _ | .xorReg _ _ | .addReg _ _ | .sub _ _ | .shr _ _
  | .subn _ _ | .shl _ _ | .ldFromDT _ | .loadRegs _ => [.registers]
  | .rnd _ _ => [.registers, .drawn]
  | .drw _ _ _ => [.registers, .screen]
  | .ldI _ | .addI _ | .ldFont _ => [.index]
  | .ldToDT _ => [.delayTimer]
  | .ldToST _ => [.soundTimer]
  | .ldBcd _ | .storeRegs _ => [.memory]
  | .nop _ => []

/-- The six instructions that put a flag into `VF` (R21). -/
def Instr.setsFlag : Instr → Bool
  | .addReg _ _ | .sub _ _ | .shr _ _ | .subn _ _ | .shl _ _ | .drw _ _ _ => true
  | _ => false

namespace Machine

variable {i : Instr} {s t : State}

/-! ### The frames of the updates -/

theorem keepsBut_setI (s : State) (w : Word) : KeepsBut [.index] s (s.setI w) := fun p _ => by
  cases p <;> simp_all [Part.same]

theorem keepsBut_setDT (s : State) (b : Byte) : KeepsBut [.delayTimer] s (s.setDT b) := fun p _ => by
  cases p <;> simp_all [Part.same]

theorem keepsBut_setST (s : State) (b : Byte) : KeepsBut [.soundTimer] s (s.setST b) := fun p _ => by
  cases p <;> simp_all [Part.same]

theorem keepsBut_setVideo (s : State) (video : Video) : KeepsBut [.screen] s (s.setVideo video) := fun p _ => by
  cases p <;> simp_all [Part.same]

theorem keepsBut_setMem (s : State) (m : Memory) : KeepsBut [.memory] s (s.setMem m) := fun p _ => by
  cases p <;> simp_all [Part.same]

theorem keepsBut_setStack (s : State) (stack : Vector Word Config.stackDepth) (sp : Fin 17) :
    KeepsBut [.returnStack, .depth] s (s.setStack stack sp) := fun p _ => by
  cases p <;> simp_all [Part.same]

/-- What another register file changes. -/
theorem keepsBut_of_eq_with_v (h : t = { s with v := t.v }) : KeepsBut [.registers] s t := by
  intro p hp
  rw [h]
  cases p with
  | registers => exact absurd (by decide) hp
  | memory => exact fun _ => rfl
  | _ => rfl

/-- Two changes, the later one listed first. -/
theorem keepsBut_comp {u : State} {parts parts' : List Part} (h : KeepsBut parts s t) (h' : KeepsBut parts' t u) :
    KeepsBut (parts' ++ parts) s u :=
  keepsBut_trans (keepsBut_mono (by simp) h) (keepsBut_mono (by simp) h')

theorem keepsBut_setResultFlag (s : State) (x : Reg) (b : Byte) (f : Bool) :
    KeepsBut [.registers] s (s.setResultFlag x b f) :=
  keepsBut_trans (keepsBut_setV s x b) (keepsBut_setV _ .vf _)

theorem keepsBut_finishDraw (s : State) (cv : Canvas Config.videoCells) :
    KeepsBut [.registers, .screen] s (s.finishDraw cv) :=
  keepsBut_comp (keepsBut_setVideo s cv.video) (keepsBut_setV _ .vf _)

/-! ### The parts an instruction can change -/

/-- A completed key wait went back or took a key (R148). -/
theorem exec_ldKey_next {x : Reg} (h : exec (.ldKey x) s = .next t) :
    t = s.rewind ∨ ∃ k : Reg, t = s.setV x (BitVec.ofNat 8 k.val) := by
  rcases exec_ldKey (s := s) x with hwait | ⟨k, -, hheld⟩
  · exact .inl (Host.Outcome.next.inj (h.symm.trans hwait))
  · exact .inr ⟨k, Host.Outcome.next.inj (h.symm.trans hheld)⟩

/-- An instruction that completes changes only the parts it writes. -/
theorem exec_keepsBut (h : exec i s = .next t) : KeepsBut i.writes s t := by
  cases i with
  | cls => cases h; exact keepsBut_setVideo s 0
  | ret =>
    obtain ⟨k, hk, -, rfl⟩ := exec_ret_next h
    have hpop := keepsBut_of_same (keepsBut_setStack s s.stack ⟨k, Nat.lt_succ_of_lt hk⟩) rfl
    exact keepsBut_comp hpop (keepsBut_setPc _ _)
  | call nnn =>
    obtain ⟨hs, rfl⟩ := exec_call_next h
    exact keepsBut_comp (keepsBut_setStack s _ _) (keepsBut_setPc _ _)
  | jp | jpV0 => cases h; exact keepsBut_setPc s _
  | seImm | sneImm | seReg | sneReg => cases h; exact keepsBut_skipIf s _
  | skp x => obtain ⟨hk, rfl⟩ := exec_skp_next h; exact keepsBut_skipIf s _
  | sknp x => obtain ⟨hk, rfl⟩ := exec_sknp_next h; exact keepsBut_skipIf s _
  | ldKey x =>
    rcases exec_ldKey_next h with rfl | ⟨k, rfl⟩
    · exact keepsBut_mono (by simp [Instr.writes]) (keepsBut_setPc s _)
    · exact keepsBut_mono (by simp [Instr.writes]) (keepsBut_setV s x _)
  | ldImm | addImm | ldReg | orReg | andReg | xorReg | ldFromDT => cases h; exact keepsBut_setV s _ _
  | addReg | sub | shr | subn | shl => cases h; exact keepsBut_setResultFlag s _ _ _
  | loadRegs x => obtain ⟨-, heq, -⟩ := exec_loadRegs_next h; exact keepsBut_of_eq_with_v heq
  | rnd x kk =>
    cases h
    exact keepsBut_comp (keepsBut_countDraw s) (keepsBut_setV _ x _)
  | drw x y n => obtain ⟨-, cv, -, rfl⟩ := exec_drw_next h; exact keepsBut_finishDraw s cv
  | ldI | addI | ldFont => cases h; exact keepsBut_setI s _
  | ldToDT => cases h; exact keepsBut_setDT s _
  | ldToST => cases h; exact keepsBut_setST s _
  | ldBcd x => obtain ⟨-, rfl⟩ := exec_ldBcd_next h; exact keepsBut_setMem s _
  | storeRegs x => obtain ⟨-, rfl⟩ := exec_storeRegs_next h; exact keepsBut_setMem s _
  | nop w => cases h; exact keepsBut_refl [] s

/-- An instruction that does not write a part leaves it the same. -/
theorem exec_same {p : Part} (h : exec i s = .next t) (hp : p ∉ i.writes) : Part.same s t p := exec_keepsBut h p hp

/-! ### Memory -/

/-- All but the two stores leave memory as the same list of cells. -/
theorem exec_next_mem (h : exec i s = .next t) (hm : .memory ∉ i.writes) : t.mem = s.mem := by
  cases i with
  | ldBcd x | storeRegs x => exact absurd (by simp [Instr.writes]) hm
  | ret => obtain ⟨k, hk, -, rfl⟩ := exec_ret_next h; rfl
  | call nnn => obtain ⟨hs, rfl⟩ := exec_call_next h; rfl
  | skp x => obtain ⟨hk, rfl⟩ := exec_skp_next h; exact s.mem_skipIf _
  | sknp x => obtain ⟨hk, rfl⟩ := exec_sknp_next h; exact s.mem_skipIf _
  | seImm | sneImm | seReg | sneReg => cases h; exact s.mem_skipIf _
  | ldKey x =>
    rcases exec_ldKey_next h with rfl | ⟨k, rfl⟩
    · rfl
    · rfl
  | loadRegs x => obtain ⟨-, heq, -⟩ := exec_loadRegs_next h; rw [heq]
  | drw x y n => obtain ⟨-, cv, -, rfl⟩ := exec_drw_next h; rfl
  | _ => cases h; rfl

/-- Every instruction keeps the canonical form of memory: the two stores store where memory is, and the others leave it. -/
theorem exec_next_inv (h : exec i s = .next t) (hs : s.Inv) : t.Inv := by
  cases i with
  | ldBcd x =>
    obtain ⟨hlt, rfl⟩ := exec_ldBcd_next h
    exact Memory.wf_storeAll hs (by simp only [bcdDigits, List.length_cons, List.length_nil]; omega)
  | storeRegs x =>
    obtain ⟨hlt, rfl⟩ := exec_storeRegs_next h
    exact Memory.wf_storeAll hs (by rw [List.length_map, length_regsUpTo]; omega)
  | _ => rwa [State.Inv, exec_next_mem h (by simp [Instr.writes])]

/-- Settles O14: the fetch, the advance and the tick leave memory, and the instruction keeps its form. -/
theorem stepKeepsInvariant : Obligations.StepKeepsInvariant := by
  intro s t hs h
  obtain ⟨w, u, -, hu, rfl⟩ := step_next_iff.1 h
  exact exec_next_inv (t := u) hu hs

/-! ### Registers -/

theorem State.getV_finishDraw (s : State) (cv : Canvas Config.videoCells) (r : Reg) :
    (s.finishDraw cv).getV r = if r = .vf then flagByte cv.hit else s.getV r :=
  State.getV_setV (s.setVideo cv.video) .vf r _

/-- A register keeps its value in every instruction of which it is neither the `x` operand, nor the flag, nor one of the
registers of a block load (R21). -/
theorem exec_next_getV {r : Reg} (h : exec i s = .next t) (hx : i.operandX ≠ some r)
    (hflag : r = 15 → i.setsFlag = false) (hload : ∀ x, i = .loadRegs x → x < r) : t.getV r = s.getV r := by
  have hne {x : Reg} (hi : i.operandX = some x) : r ≠ x := fun hr => hx (hr ▸ hi)
  have hvf (hi : i.setsFlag = true) : r ≠ .vf := fun hr => by simp [hflag hr] at hi
  cases i with
  | ldImm | addImm | ldReg | orReg | andReg | xorReg | ldFromDT | rnd =>
    cases h
    exact State.getV_setV_other _ (hne rfl) _
  | addReg | sub | shr | subn | shl =>
    cases h
    rw [State.getV_setResultFlag, if_neg (hvf rfl), if_neg (hne rfl)]
  | drw x y n =>
    obtain ⟨-, cv, -, rfl⟩ := exec_drw_next h
    rw [State.getV_finishDraw, if_neg (hvf rfl)]
  | ldKey x =>
    rcases exec_ldKey_next h with rfl | ⟨k, rfl⟩
    · rfl
    · exact s.getV_setV_other (hne rfl) _
  | loadRegs x =>
    obtain ⟨-, -, hregs⟩ := exec_loadRegs_next h
    rw [hregs r, if_neg (hload x rfl).not_ge]
  | _ => exact exec_same h (p := .registers) (by simp [Instr.writes]) r

/-- After a flag producer `VF` is 0 or 1 (R21). -/
theorem exec_next_flag (h : exec i s = .next t) (hi : i.setsFlag = true) : t.getV 15 = 0 ∨ t.getV 15 = 1 := by
  have hbyte (f : Bool) : flagByte f = 0 ∨ flagByte f = 1 := by cases f <;> simp [flagByte]
  cases i with
  | addReg | sub | shr | subn | shl =>
    cases h
    rw [State.getV_setResultFlag_vf]
    exact hbyte _
  | drw x y n =>
    obtain ⟨-, cv, -, rfl⟩ := exec_drw_next h
    rw [State.getV_finishDraw, if_pos rfl]
    exact hbyte _
  | _ => cases hi

/-- Settles O38: the six producers leave a flag byte, and in no other instruction is `VF` more than a register. -/
theorem onlySixInstructionsSetFlag : Obligations.OnlySixInstructionsSetFlag := by
  intro i s t h
  cases i with
  | addReg | sub | shr | subn | shl | drw => exact exec_next_flag h rfl
  | loadRegs x =>
    intro hx
    refine exec_next_getV h hx (fun _ => rfl) fun x' hx' => ?_
    cases hx'
    exact lt_of_le_of_ne (Fin.le_last x) fun he => hx (congrArg some he)
  | _ => exact fun hx => exec_next_getV h hx (fun _ => rfl) fun _ => nofun

/-- The writers of each part, read off the list. -/
theorem writers_of_mem_writes (i : Instr) :
    (.memory ∈ i.writes → ∃ x, i = .ldBcd x ∨ i = .storeRegs x) ∧
    (.screen ∈ i.writes → i = .cls ∨ ∃ x y n, i = .drw x y n) ∧
    (.index ∈ i.writes → (∃ nnn, i = .ldI nnn) ∨ ∃ x, i = .addI x ∨ i = .ldFont x) ∧
    (.returnStack ∈ i.writes → ∃ nnn, i = .call nnn) ∧ (.depth ∈ i.writes → i = .ret ∨ ∃ nnn, i = .call nnn) ∧
    (.delayTimer ∈ i.writes → ∃ x, i = .ldToDT x) ∧ (.soundTimer ∈ i.writes → ∃ x, i = .ldToST x) ∧
    (.drawn ∈ i.writes → ∃ x kk, i = .rnd x kk) := by
  cases i <;> simp [Instr.writes]

/-- Settles O51: the parts by the list of what an instruction writes, memory as a list of cells, and each register by its
part in the instruction. -/
theorem partsHaveTheListedWriters : Obligations.PartsHaveTheListedWriters := by
  intro i s t h
  have hpart (p : Part) (hp : ¬ Part.same s t p) : p ∈ i.writes := not_not.1 (mt (exec_same h) hp)
  have hmem (hm : t.mem ≠ s.mem) : .memory ∈ i.writes := not_not.1 (mt (exec_next_mem h) hm)
  obtain ⟨memory, screen, index, stack, depth, dt, st, drawn⟩ := writers_of_mem_writes i
  refine ⟨fun r hr => ?_, memory ∘ hmem, screen ∘ hpart .screen, index ∘ hpart .index, stack ∘ hpart .returnStack,
    depth ∘ hpart .depth, dt ∘ hpart .delayTimer, st ∘ hpart .soundTimer, drawn ∘ hpart .drawn, (exec_next_source h).1,
    exec_next_key h, exec_next_opcode h⟩
  by_contra! hno
  obtain ⟨hx, hvf, hload⟩ := hno
  exact hr (exec_next_getV h hx (fun hr15 => absurd hr15 hvf) hload)

end Machine

end Sys2Proof
end

section
/-! SUPPORT and O25, O50, O52, O57. How each instruction changes `pc`, where it faults, and what it does of the stack and of
the index register (spec 10_state.md R22 to R25; 60_exceptions.md R160 to R163). -/

namespace Sys2Proof.Machine

variable {i : Instr} {s t : State}

/-! ### The program counter -/

/-- The target of the offset jump does not wrap: both operands are small (R107). -/
theorem offsetTarget_toNat (nnn : BitVec 12) (v0 : Byte) : (offsetTarget nnn v0).toNat = nnn.toNat + v0.toNat := by
  rw [offsetTarget, BitVec.toNat_add, addressOf_toNat, wordOf_toNat]
  omega

/-- A conditional skip leaves `pc` or moves it on by 2 (R108). -/
theorem State.pc_skipIf_or (s : State) (c : Bool) : (s.skipIf c).pc = s.pc ∨ (s.skipIf c).pc = s.pc + 2 := by
  cases c
  · exact .inl rfl
  · exact .inr rfl

/-- The key wait goes back where no key is held (R148). -/
theorem exec_ldKey_of_none (x : Reg) (h : lowestKey s.key = none) : exec (.ldKey x) s = .next s.rewind := by
  simp only [exec, execLdKey, h]

/-- The key wait takes the lowest held key (R148). -/
theorem exec_ldKey_of_some (x : Reg) {k : Reg} (h : lowestKey s.key = some k) :
    exec (.ldKey x) s = .next (s.setV x (BitVec.ofNat 8 k.val)) := by
  simp only [exec, execLdKey, h]

/-- Settles O25: the control flow by what each writes into `pc`; every other instruction does not write it. -/
theorem programCounterChangesOnlyAsListed : Obligations.ProgramCounterChangesOnlyAsListed := by
  intro i s t h
  cases i with
  | jp nnn => cases h; exact addressOf_toNat nnn
  | call nnn => obtain ⟨hs, rfl⟩ := exec_call_next h; exact addressOf_toNat nnn
  | jpV0 nnn => cases h; exact offsetTarget_toNat nnn _
  | ret => obtain ⟨k, hk, hsp, rfl⟩ := exec_ret_next h; exact ⟨⟨k, hk⟩, hsp, rfl⟩
  | seImm | sneImm | seReg | sneReg => cases h; exact s.pc_skipIf_or _
  | skp x => obtain ⟨hk, rfl⟩ := exec_skp_next h; exact s.pc_skipIf_or _
  | sknp x => obtain ⟨hk, rfl⟩ := exec_sknp_next h; exact s.pc_skipIf_or _
  | ldKey x =>
    cases hlow : lowestKey s.key with
    | none =>
      cases (exec_ldKey_of_none x hlow).symm.trans h
      exact (if_pos (lowestKey_none.1 hlow)).mpr rfl
    | some k =>
      cases (exec_ldKey_of_some x hlow).symm.trans h
      have hheld : ¬ ∀ k : Reg, s.key[k.val] = false := by simp [← lowestKey_none, hlow]
      exact (if_neg hheld).mpr rfl
  | _ => exact exec_same h (p := .counter) (by simp [Instr.writes])

/-! ### Faults -/

/-- The faults of the instructions, each with its cause and with what it carries (R162). -/
def ListedFault (i : Instr) (s : State) (f : Fault) : Prop :=
  (∃ nnn, i = .call nnn ∧ s.sp.val = 16 ∧ f = .stackOverflow s.pc) ∨
  (i = .ret ∧ s.sp.val = 0 ∧ f = .stackUnderflow s.pc) ∨
  (∃ x, (i = .skp x ∨ i = .sknp x) ∧ 15 < (s.getV x).toNat ∧ f = .keyIndexOutOfRange (s.getV x)) ∨
  (∃ x, i = .ldBcd x ∧ 0xFFF < s.i.toNat + 2 ∧ f = .memOutOfRange (s.i.toNat + 2)) ∨
  (∃ x, (i = .storeRegs x ∨ i = .loadRegs x) ∧ 0xFFF < s.i.toNat + x.val ∧ f = .memOutOfRange (s.i.toNat + x.val)) ∨
  (∃ x y n, i = .drw x y n ∧ 0 < n.toNat ∧ 0xFFF < s.i.toNat + (n.toNat - 1) ∧
    f = .memOutOfRange (s.i.toNat + (n.toNat - 1))) ∨
  (∃ x y n r c, i = .drw x y n ∧ s.i.toNat + (n.toNat - 1) ≤ 0xFFF ∧ r < n.toNat ∧ c < 8 ∧
    s.spriteBit r c = true ∧ Config.videoCells ≤ spriteIndex (s.getV x) (s.getV y) r c ∧
    f = .videoOutOfRange (spriteIndex (s.getV x) (s.getV y) r c))

/-- A draw completes or faults, on a row past memory or on a set pixel past the buffer (R138, R139). -/
theorem exec_drw_next_or_listedFault (x y : Reg) (n : BitVec 4) (s : State) :
    (∃ t, exec (.drw x y n) s = .next t) ∨ ∃ f, exec (.drw x y n) s = .fault f ∧ ListedFault (.drw x y n) s f := by
  by_cases hm : n.toNat = 0 ∨ s.i.toNat + (n.toNat - 1) < Config.memSize
  · cases h : exec (.drw x y n) s with
    | next t => exact .inl ⟨t, rfl⟩
    | fault f =>
      obtain ⟨r, c, hr, hc, hbit, hidx, rfl⟩ := exec_drw_fault h hm
      have hrows : s.i.toNat + (n.toNat - 1) ≤ 0xFFF := by rw [memSize_eq] at hm; omega
      exact .inr ⟨_, rfl, .inr (.inr (.inr (.inr (.inr (.inr
        ⟨x, y, n, r, c, rfl, hrows, hr, hc, hbit, hidx, rfl⟩)))))⟩
    | refused r =>
      rw [exec_drw_of_lt hm] at h
      split at h <;> cases h
  · obtain ⟨h0, hge⟩ : 0 < n.toNat ∧ Config.memSize ≤ s.i.toNat + (n.toNat - 1) := by omega
    exact .inr ⟨_, exec_drw_of_ge h0 hge, .inr (.inr (.inr (.inr (.inr (.inl ⟨x, y, n, rfl, h0, hge, rfl⟩)))))⟩

/-- Every instruction completes or takes a listed fault; none is refused (R162). -/
theorem exec_next_or_listedFault (i : Instr) (s : State) :
    (∃ t, exec i s = .next t) ∨ ∃ f, exec i s = .fault f ∧ ListedFault i s f := by
  cases i with
  | call nnn =>
    rcases Nat.lt_or_ge s.sp.val 16 with hs | hs
    · exact .inl ⟨_, exec_call_of_lt hs⟩
    · have hfull : s.sp.val = 16 := by omega
      exact .inr ⟨_, exec_call_full hfull, .inl ⟨nnn, rfl, hfull, rfl⟩⟩
  | ret =>
    rcases Nat.eq_zero_or_pos s.sp.val with hs | hs
    · exact .inr ⟨_, exec_ret_empty hs, .inr (.inl ⟨rfl, hs, rfl⟩)⟩
    · exact .inl ⟨_, exec_ret_of_pos (k := s.sp.val - 1) (by omega) (by omega)⟩
  | skp x =>
    rcases Nat.lt_or_ge (s.getV x).toNat 16 with hk | hk
    · exact .inl ⟨_, exec_skp_of_lt hk⟩
    · exact .inr ⟨_, exec_skp_of_ge hk, .inr (.inr (.inl ⟨x, .inl rfl, hk, rfl⟩))⟩
  | sknp x =>
    rcases Nat.lt_or_ge (s.getV x).toNat 16 with hk | hk
    · exact .inl ⟨_, exec_sknp_of_lt hk⟩
    · exact .inr ⟨_, exec_sknp_of_ge hk, .inr (.inr (.inl ⟨x, .inr rfl, hk, rfl⟩))⟩
  | ldBcd x =>
    rcases Nat.lt_or_ge (s.i.toNat + 2) Config.memSize with hs | hs
    · exact .inl ⟨_, exec_ldBcd_of_lt hs⟩
    · exact .inr ⟨_, exec_ldBcd_of_ge hs, .inr (.inr (.inr (.inl ⟨x, rfl, hs, rfl⟩)))⟩
  | storeRegs x =>
    rcases Nat.lt_or_ge (s.i.toNat + x.val) Config.memSize with hs | hs
    · exact .inl ⟨_, exec_storeRegs_of_lt hs⟩
    · exact .inr ⟨_, exec_storeRegs_of_ge hs, .inr (.inr (.inr (.inr (.inl ⟨x, .inl rfl, hs, rfl⟩))))⟩
  | loadRegs x =>
    rcases Nat.lt_or_ge (s.i.toNat + x.val) Config.memSize with hs | hs
    · obtain ⟨u, hu, -⟩ := exec_loadRegs_of_lt hs
      exact .inl ⟨u, hu⟩
    · exact .inr ⟨_, exec_loadRegs_of_ge hs, .inr (.inr (.inr (.inr (.inl ⟨x, .inr rfl, hs, rfl⟩))))⟩
  | drw x y n => exact exec_drw_next_or_listedFault x y n s
  | ldKey x =>
    rcases exec_ldKey (s := s) x with hx | ⟨k, -, hx⟩
    · exact .inl ⟨_, hx⟩
    · exact .inl ⟨_, hx⟩
  | _ => exact .inl ⟨_, rfl⟩

/-- Settles O50: an instruction that does not complete takes a listed fault, and a cycle refuses only what it does. -/
theorem faultsAreTheListedFive : Obligations.FaultsAreTheListedFive := by
  have hrefused (i : Instr) (s : State) (r : Refusal) : exec i s ≠ .refused r := by
    rcases exec_next_or_listedFault i s with ⟨t, ht⟩ | ⟨f, hf, -⟩
    · simp [ht]
    · simp [hf]
  refine fun i s => ⟨hrefused i s, fun r hr => ?_, fun f hf => ?_⟩
  · cases hfetch : s.fetch with
    | error f =>
      rw [step_fault_iff.2 (.inl hfetch)] at hr
      cases hr
    | ok w =>
      rw [step_of_fetch hfetch] at hr
      cases hw : exec (decode w) (s.advance w) with
      | refused r' => exact hrefused _ _ r' hw
      | next t | fault f => rw [hw] at hr; cases hr
  · rcases exec_next_or_listedFault i s with ⟨t, ht⟩ | ⟨g, hg, hlisted⟩
    · cases ht.symm.trans hf
    · cases hg.symm.trans hf
      exact hlisted

/-! ### The stack -/

/-- The two instructions that use the stack (R24). -/
def Instr.usesStack : Instr → Bool
  | .call _ | .ret => true
  | _ => false

theorem spares_stack (hi : Instr.usesStack i = false) (stack : Vector Word 16) :
    Overwrite.Spares { stack := some stack } i := by
  cases i with
  | call | ret => cases hi
  | _ => simp [Overwrite.Spares]

/-- What other contents of the stack change, with the stack pointer as it is. -/
theorem keepsBut_setStack_sp (s : State) (stack : Vector Word 16) : KeepsBut [.returnStack] s (s.setStack stack s.sp) :=
  keepsBut_of_same (p := .depth) (keepsBut_mono (by simp) (keepsBut_setStack s stack s.sp)) rfl

/-- With other contents of the stack an instruction that does not use it does the same, a fault included. -/
theorem exec_setStack (hi : Instr.usesStack i = false) (s : State) (stack : Vector Word 16) :
    exec i (s.setStack stack s.sp) = mapNext (fun t => t.setStack stack t.sp) (exec i s) :=
  exec_apply (spares_stack hi stack) s

theorem exec_next_stack (hi : Instr.usesStack i = false) (h : exec i s = .next t) : t.stack = s.stack :=
  (congrArg State.stack (apply_eq_self_of_exec_next (spares_stack hi s.stack) rfl h)).symm

/-- The entries of a stack after a push. -/
theorem getElem_set_push (stack : Vector Word 16) {sp : Nat} (hsp : sp < 16) (w : Word) (k : Fin 16) :
    (stack.set sp w)[k.val] = if k.val = sp then w else stack[k.val] := by
  simp only [Vector.getElem_set, eq_comm]

/-- A fault does not depend on the contents of the stack (R101, R102). -/
theorem exec_setStack_fault {f : Fault} (h : exec i s = .fault f) (stack : Vector Word 16) :
    exec i (s.setStack stack s.sp) = .fault f := by
  cases i with
  | call nnn =>
    rcases Nat.lt_or_ge s.sp.val 16 with hs | hs
    · cases (exec_call_of_lt hs).symm.trans h
    · have hfull : s.sp.val = 16 := by omega
      rw [← h, exec_call_full hfull]
      exact exec_call_full hfull
  | ret =>
    rcases Nat.eq_zero_or_pos s.sp.val with hs | hs
    · rw [← h, exec_ret_empty hs]
      exact exec_ret_empty hs
    · cases (exec_ret_of_pos (k := s.sp.val - 1) (by omega) (by omega)).symm.trans h
  | _ => rw [exec_setStack rfl, h, mapNext_fault]

/-- Settles O52: the call pushes `pc` into entry `sp` of whatever stack there is, the return keeps the array, and every other
instruction is spared by other contents. -/
theorem stackIsReachedOnlyByCallAndRet : Obligations.StackIsReachedOnlyByCallAndRet := by
  refine fun i s stack => ⟨State.fetch_congr rfl rfl, fun a => rfl, fun t h => ?_, fun f h => exec_setStack_fault h stack⟩
  cases i with
  | call nnn =>
    obtain ⟨hs, rfl⟩ := exec_call_next h
    exact ⟨getElem_set_push s.stack hs s.pc, _, exec_call_of_lt (s := s.setStack stack s.sp) hs, rfl,
      keepsBut_setStack_sp _ (stack.set s.sp.val s.pc), getElem_set_push stack hs s.pc⟩
  | ret => obtain ⟨k, hk, -, rfl⟩ := exec_ret_next h; rfl
  | _ =>
    refine ⟨exec_next_stack rfl h, t.setStack stack t.sp, ?_, rfl, keepsBut_setStack_sp t stack, rfl⟩
    rw [exec_setStack rfl, h, mapNext_next]

/-! ### The index register -/

theorem glyphAddress_toNat (digit : Byte) : (glyphAddress digit).toNat = 0x050 + 5 * digit.toNat := by
  have hbase : (BitVec.ofNat 16 Config.fontBase).toNat = 0x050 := rfl
  have hfive : (5 : Word).toNat = 5 := rfl
  rw [glyphAddress, BitVec.toNat_add, BitVec.toNat_mul, wordOf_toNat, hbase, hfive]
  omega

theorem toNat_add_wordOf (w : Word) (b : Byte) : (w + wordOf b).toNat = (w.toNat + b.toNat) % 65536 := by
  rw [BitVec.toNat_add, wordOf_toNat]

/-- The instructions that use `I`: as an address, as a summand, or as their destination (R22). -/
def Instr.usesIndex : Instr → Bool
  | .ldI _ | .addI _ | .ldFont _ | .ldBcd _ | .storeRegs _ | .loadRegs _ | .drw _ _ _ => true
  | _ => false

/-- With another `I` an instruction that does not use it does the same, a fault included. -/
theorem exec_setI (hi : Instr.usesIndex i = false) (s : State) (w : Word) :
    exec i (s.setI w) = mapNext (fun t => t.setI w) (exec i s) := by
  refine exec_apply (ρ := { index := some w }) ?_ s
  cases i <;> simp_all [Overwrite.Spares, Instr.usesIndex]

/-- Settles O57: the three that write `I` by computation, the four that address with it by what they write, and the others
are spared by another `I`. -/
theorem indexIsReadOnlyAsAnAddress : Obligations.IndexIsReadOnlyAsAnAddress := by
  refine ⟨fun i s t h => ?_, fun i s f h => ?_⟩
  · cases i with
    | ldI nnn =>
      cases h
      exact ⟨addressOf_toNat nnn, fun w => ⟨_, rfl, rfl, rfl, keepsBut_refl [] _⟩⟩
    | ldFont x =>
      cases h
      exact ⟨glyphAddress_toNat _, fun w => ⟨_, rfl, rfl, rfl, keepsBut_refl [] _⟩⟩
    | addI x =>
      cases h
      exact ⟨toNat_add_wordOf _ _, fun w => ⟨_, rfl, toNat_add_wordOf _ _, rfl, keepsBut_setI _ _⟩⟩
    | drw | ldBcd | storeRegs | loadRegs => exact exec_same h (p := .index) (by simp [Instr.writes])
    | _ =>
      refine ⟨exec_same h (p := .index) (by simp [Instr.writes]), fun w => ⟨t.setI w, ?_, rfl, rfl, keepsBut_setI t w⟩⟩
      rw [exec_setI rfl, h, mapNext_next]
  · cases i with
    | drw | ldBcd | storeRegs | loadRegs => trivial
    | ldI | addI | ldFont => cases h
    | _ => exact fun w => by rw [exec_setI rfl, h, mapNext_fault]

end Sys2Proof.Machine
end

section
/-! SUPPORT and O20, O21, O22, O23, O24, O28, O29, O33, O34, O35, O36, O37, O40, O41, O47, O48. The meanings of single
instructions: what lands in the destination, with the frame from the list of what the instruction writes (spec
41_control_flow.md to 46_input.md). -/

namespace Sys2Proof.Machine

variable {s t : State}

/-! ### Control flow -/

/-- Settles O20: the jump is one write of `pc`, and its two operands are too small for a wrap. -/
theorem offsetJumpAddsV0 : Obligations.OffsetJumpAddsV0 := by
  intro nnn s
  have htarget := offsetTarget_toNat nnn (s.getV 0)
  refine ⟨s.setPc (offsetTarget nnn (s.getV 0)), rfl, htarget, ?_, keepsBut_setPc s _⟩
  rw [State.pc_setPc, htarget]
  omega

/-- Settles O21: with room the call is a push and a jump, and without room the push faults. -/
theorem callPushesReturnAddress : Obligations.CallPushesReturnAddress := fun nnn s =>
  ⟨fun hs => ⟨_, exec_call_of_lt hs, addressOf_toNat nnn, rfl, getElem_set_push s.stack hs s.pc,
    exec_keepsBut (exec_call_of_lt hs)⟩, exec_call_full⟩

/-- Settles O22: with a live entry the return is a pop, and without one the pop faults. -/
theorem returnPopsLastEntry : Obligations.ReturnPopsLastEntry := fun _ =>
  ⟨fun k hk => ⟨_, exec_ret_of_pos k.isLt hk, rfl, rfl, exec_keepsBut (exec_ret_of_pos k.isLt hk)⟩, exec_ret_empty⟩

/-- Settles O23: the entry that the call wrote is the last live one, so the return pops it. -/
theorem returnUndoesCall : Obligations.ReturnUndoesCall := by
  intro nnn s t u h hstack hsp
  obtain ⟨hs, rfl⟩ := exec_call_next h
  have husp : u.sp.val = s.sp.val + 1 := congrArg Fin.val hsp
  refine ⟨_, exec_ret_of_pos hs husp, ?_, rfl⟩
  simp only [State.pc_setPc, hstack, State.stack_setPc, State.stack_setStack, Vector.getElem_set_self]

/-- A conditional skip as a number: on by 2, or not at all (R108). -/
theorem State.toNat_pc_skipIf (s : State) (c : Bool) :
    (s.skipIf c).pc.toNat = if c then (s.pc.toNat + 2) % 65536 else s.pc.toNat := by
  cases c
  · rfl
  · exact BitVec.toNat_add s.pc 2

/-- Settles O24: each is a conditional skip, on the equality of its two operands or on its negation. -/
theorem registerSkipsTestTheirOperands : Obligations.RegisterSkipsTestTheirOperands := by
  refine fun x y kk s => ⟨⟨_, rfl, keepsBut_skipIf s _, ?_⟩, ⟨_, rfl, keepsBut_skipIf s _, ?_⟩,
    ⟨_, rfl, keepsBut_skipIf s _, ?_⟩, ⟨_, rfl, keepsBut_skipIf s _, ?_⟩⟩
  all_goals simp [State.toNat_pc_skipIf]

/-! ### Data movement -/

/-- Settles O28: one write of the destination each. -/
theorem copiesAndAddressesLand : Obligations.CopiesAndAddressesLand :=
  ⟨fun x _ s => ⟨_, rfl, s.getV_setV_same x _, regsKeptBut_setV s x _, keepsBut_setV s x _⟩,
    fun nnn s => ⟨_, rfl, addressOf_toNat nnn, keepsBut_setI s _⟩,
    fun x s => ⟨_, rfl, glyphAddress_toNat (s.getV x), keepsBut_setI s _⟩⟩

/-- Settles O29: one write of the destination each. -/
theorem timerMovesCopyTheirOperand : Obligations.TimerMovesCopyTheirOperand := fun x s =>
  ⟨⟨_, rfl, s.getV_setV_same x s.dt, regsKeptBut_setV s x _, keepsBut_setV s x _⟩,
    ⟨_, rfl, rfl, keepsBut_setDT s _⟩, ⟨_, rfl, rfl, keepsBut_setST s _⟩⟩

/-! ### Arithmetic and logic -/

/-- Settles O33: one register write each, of a bit vector operation that works bit by bit. -/
theorem bitLogicWorksBitByBit : Obligations.BitLogicWorksBitByBit := by
  refine fun x y s => ⟨⟨_, rfl, fun k hk => ?_, regsKeptBut_setV s x _, keepsBut_setV s x _⟩,
    ⟨_, rfl, fun k hk => ?_, regsKeptBut_setV s x _, keepsBut_setV s x _⟩,
    ⟨_, rfl, fun k hk => ?_, regsKeptBut_setV s x _, keepsBut_setV s x _⟩⟩
  · rw [State.getV_setV_same, BitVec.getLsbD_or]
  · rw [State.getV_setV_same, BitVec.getLsbD_and]
  · rw [State.getV_setV_same, BitVec.getLsbD_xor]

theorem toNat_flagByte (f : Bool) : (flagByte f).toNat = if f then 1 else 0 := by
  cases f <;> rfl

/-- What an instruction of result and flag leaves: the result in `V[x]` unless that is `VF`, the flag in `VF`, and nothing
else changed (R131). -/
theorem State.setResultFlag_spec (s : State) (x : Reg) (b : Byte) (f : Bool) :
    (x ≠ 15 → (s.setResultFlag x b f).getV x = b) ∧ ((s.setResultFlag x b f).getV 15).toNat = (if f then 1 else 0) ∧
      RegsKeptBut [x, 15] s (s.setResultFlag x b f) ∧ KeepsBut [.registers] s (s.setResultFlag x b f) := by
  refine ⟨fun hx => ?_, ?_, fun r hr => ?_, keepsBut_setResultFlag s x b f⟩
  · rw [State.getV_setResultFlag, if_neg hx, if_pos rfl]
  · rw [State.getV_setResultFlag_vf, toNat_flagByte]
  · simp only [List.mem_cons, List.not_mem_nil, or_false, not_or] at hr
    rw [State.getV_setResultFlag, if_neg hr.2, if_neg hr.1]

/-- Settles O34: the result is a sum of bytes, and the flag says that the sum of their numbers needs a ninth bit. -/
theorem addSetsCarry : Obligations.AddSetsCarry := by
  intro x y s
  obtain ⟨hx, hflag, hregs, hframe⟩ := s.setResultFlag_spec x (s.getV x + s.getV y) (carryFlag (s.getV x) (s.getV y))
  refine ⟨_, rfl, fun h => ?_, ?_, hregs, hframe⟩
  · rw [hx h, BitVec.toNat_add]
  · simpa [carryFlag] using hflag

/-- A difference of bytes as a number. -/
theorem toNat_sub_byte (a b : Byte) : (a - b).toNat = (a.toNat + 256 - b.toNat) % 256 := by
  rw [BitVec.toNat_sub]
  omega

/-- Settles O35: the two subtractions differ in which operand is the minuend; the flag compares them as numbers. -/
theorem subtractionsSetStrictFlag : Obligations.SubtractionsSetStrictFlag := by
  intro x y s
  constructor
  · obtain ⟨hx, hflag, hregs, hframe⟩ := s.setResultFlag_spec x (s.getV x - s.getV y) (greaterFlag (s.getV x) (s.getV y))
    refine ⟨_, rfl, fun h => ?_, ?_, hregs, hframe⟩
    · rw [hx h, toNat_sub_byte]
    · simpa [greaterFlag] using hflag
  · obtain ⟨hx, hflag, hregs, hframe⟩ := s.setResultFlag_spec x (s.getV y - s.getV x) (greaterFlag (s.getV y) (s.getV x))
    refine ⟨_, rfl, fun h => ?_, ?_, hregs, hframe⟩
    · rw [hx h, toNat_sub_byte]
    · simpa [greaterFlag] using hflag

/-- The bit a right shift moves out is the remainder by 2. -/
theorem toNat_lowBitFlag (a : Byte) : (if lowBitFlag a then 1 else 0) = a.toNat % 2 := by
  revert a; decide

/-- The bit a left shift moves out is the quotient by 128. -/
theorem toNat_highBitFlag (a : Byte) : (if highBitFlag a then 1 else 0) = a.toNat / 128 := by
  revert a; decide

/-- Settles O36: both shift the value of `V[x]` and take the flag from that same value. -/
theorem shiftsSetBitShiftedOut : Obligations.ShiftsSetBitShiftedOut := by
  intro x y s
  constructor
  · obtain ⟨hx, hflag, hregs, hframe⟩ := s.setResultFlag_spec x (s.getV x >>> 1) (lowBitFlag (s.getV x))
    refine ⟨_, rfl, fun h => ?_, hflag.trans (toNat_lowBitFlag _), hregs, hframe⟩
    rw [hx h, BitVec.toNat_ushiftRight, Nat.shiftRight_one]
  · obtain ⟨hx, hflag, hregs, hframe⟩ := s.setResultFlag_spec x (s.getV x <<< 1) (highBitFlag (s.getV x))
    refine ⟨_, rfl, fun h => ?_, hflag.trans (toNat_highBitFlag _), hregs, hframe⟩
    rw [hx h, BitVec.toNat_shiftLeft, Nat.shiftLeft_eq]

/-- Settles O37: one write of `I`, of a sum of words. -/
theorem addIndexWrapsAtSixteenBits : Obligations.AddIndexWrapsAtSixteenBits := fun x s =>
  ⟨_, rfl, toNat_add_wordOf s.i (s.getV x), keepsBut_setI s _⟩

/-- Settles O40: one draw, and one register write of the byte drawn under the mask. -/
theorem randomIsMaskedFreeByte : Obligations.RandomIsMaskedFreeByte := by
  intro x kk s
  refine ⟨_, exec_rnd x kk s, State.getV_setV_same _ x _, fun k _ hk => ?_, rfl, regsKeptBut_setV s.countDraw x _,
    exec_keepsBut (exec_rnd x kk s)⟩
  rw [State.getV_setV_same, BitVec.getLsbD_and, hk, Bool.and_false]

/-! ### Display and keypad -/

/-- Every word under the match and mask of the clear is a clear (R76, D1). -/
theorem decode_of_cls_selectedBy {w : Word} (h : w &&& 0xF00F = 0x0000) : decode w = .cls := by
  obtain ⟨hf, hn⟩ := (hasKey_iff_selectedBy .cls w).2 h
  simp [decode_eq, decodeTableKeyed, decodeTable0, hf, hn]

/-- Settles O41: the words of the row are clears, and a clear is one write of the zero buffer. -/
theorem clearTurnsEveryCellOff : Obligations.ClearTurnsEveryCellOff :=
  ⟨fun _ => decode_of_cls_selectedBy, fun s => ⟨_, rfl, fun _ _ => BitVec.getLsbD_zero, rfl, keepsBut_setVideo s 0⟩⟩

/-- Settles O47: on a key that exists each is a conditional skip, and above 15 there is no key. -/
theorem keySkipsTestNamedKey : Obligations.KeySkipsTestNamedKey := by
  refine fun x s => ⟨fun k hk => ?_, fun hx => ⟨exec_skp_of_ge hx, exec_sknp_of_ge hx⟩⟩
  have hlt : (s.getV x).toNat < 16 := hk ▸ k.isLt
  refine ⟨⟨_, exec_skp_of_lt hlt, keepsBut_skipIf s _, ?_⟩, ⟨_, exec_sknp_of_lt hlt, keepsBut_skipIf s _, ?_⟩⟩
  · simp only [State.toNat_pc_skipIf, hk]
  · simp only [State.toNat_pc_skipIf, hk]
    cases s.key[k.val] <;> rfl

/-- The lowest held key is the one below which none is held (R148). -/
theorem lowestKey_eq_some {keys : Keys} {k : Reg} (hk : keys[k.val] = true)
    (hlow : ∀ j : Reg, j < k → keys[j.val] = false) : lowestKey keys = some k := by
  cases h : lowestKey keys with
  | none => simp [lowestKey_none.1 h k] at hk
  | some j =>
    obtain ⟨hj, hbelow⟩ := lowestKey_some h
    rcases lt_trichotomy j k with hlt | rfl | hlt
    · simp [hlow j hlt] at hj
    · rfl
    · simp [hbelow k hlt] at hk

/-- Settles O48: a held key with none below it is the lowest, and with no key held there is none. -/
theorem keyWaitTakesLowestKey : Obligations.KeyWaitTakesLowestKey := by
  refine fun x s => ⟨fun k hk hlow => ?_, fun hnone => ?_⟩
  · refine ⟨_, exec_ldKey_of_some x (lowestKey_eq_some hk hlow), ?_, regsKeptBut_setV s x _, keepsBut_setV s x _⟩
    rw [State.getV_setV_same, BitVec.toNat_ofNat]
    omega
  · refine ⟨_, exec_ldKey_of_none x (lowestKey_none.2 hnone), ?_, keepsBut_setPc s _⟩
    rw [State.rewind_eq, State.pc_setPc]
    bv_omega

end Sys2Proof.Machine
end

section
/-! SUPPORT and O8, O12, O13, O15, O16, O17, O18, O30, O31, O39, O58. Memory: bounds, what stores and block transfers leave,
the canonical form, what reset holds, and the ROM load (spec 20_memory.md; 10_state.md R35; 70_reset_and_hazards.md R182,
R183). -/

namespace Sys2Proof.Machine

variable {s t : State}

/-! ### Bounds and single accesses -/

/-- A write to an address that does not exist (R53). -/
theorem State.memWrite_of_ge {a : Nat} {b : Byte} (h : Config.memSize ≤ a) :
    s.memWrite a b = .error (.memOutOfRange a) := if_neg (Nat.not_lt.2 h)

/-- Settles O16: both accesses test the address as it is. -/
theorem accessesPastMemoryFault : Obligations.AccessesPastMemoryFault := fun _ _ _ =>
  ⟨fun h => ⟨⟨_, State.memRead_of_lt (Nat.lt_succ_of_le h)⟩, _, State.memWrite_of_lt (Nat.lt_succ_of_le h)⟩,
    fun h => ⟨State.memRead_of_ge h, State.memWrite_of_ge h⟩⟩

/-- Settles O8: both bytes are read at their own addresses, the first one first. -/
theorem fetchFaultsPastMemory : Obligations.FetchFaultsPastMemory := by
  refine fun s => ⟨fun h => ?_, step_of_pc_eq_last, fun h => step_fault_iff.2 (.inl ?_)⟩
  · have hlt : s.pc.toNat + 1 < Config.memSize := by rw [memSize_eq]; omega
    exact ⟨_, _, State.memRead_of_lt (by omega), State.memRead_of_lt hlt, State.fetch_of_lt hlt⟩
  · rw [State.fetch_of_ge (Nat.le_succ_of_le h), max_eq_left h]

/-- What a read finds in memory that reads as `m` there. -/
theorem State.memRead_setMem_of_lookup_eq {m : Memory} {a : Nat} (h : m.lookup a = s.mem.lookup a) :
    (s.setMem m).memRead a = s.memRead a := by
  simp only [State.memRead, State.mem_setMem, h]

/-- Settles O15: a write that succeeds is one store, which is read back at its own address only. -/
theorem storeReadsBack : Obligations.StoreReadsBack := by
  intro s t a b hs h
  obtain ⟨ha, rfl⟩ := State.memWrite_ok h
  refine ⟨Memory.wf_store ha hs, ?_, fun c hc => State.memRead_setMem_of_lookup_eq ?_, keepsBut_setMem s _⟩
  · rw [State.memRead_of_lt ha, State.mem_setMem, Memory.lookup_store hs, if_pos rfl]
  · rw [Memory.lookup_store hs, if_neg hc]

/-- Settles O18: the second store leaves the byte of the first, so the fetch puts the two stored bytes together. -/
theorem storedCodeIsExecuted : Obligations.StoredCodeIsExecuted := by
  intro s t u hi lo hs ht hu
  obtain ⟨htwf, hhi, -, htframe⟩ := storeReadsBack s t _ hi hs ht
  obtain ⟨-, hlo, hother, huframe⟩ := storeReadsBack t u _ lo htwf hu
  have hpc : u.pc = s.pc := (huframe .counter (by decide)).trans (htframe .counter (by decide))
  refine step_of_fetch (State.fetch_of_memRead ?_ (hpc ▸ hlo))
  rw [hpc, hother _ (by omega), hhi]

/-! ### The canonical form -/

/-- A canonical memory does not read like one whose cells all lie above its first cell, where that one reads as unlisted. -/
theorem Memory.exists_lookup_ne_of_lt {lo k : Nat} {c : Byte} {m m' : Memory}
    (hm : Memory.wfFrom lo ((k, c) :: m) = true) (hm' : Memory.wfFrom (k + 1) m' = true) :
    ∃ a, a < 0x1000 ∧ Memory.lookup ((k, c) :: m) a ≠ m'.lookup a := by
  obtain ⟨-, hk, hc, -⟩ := Memory.wfFrom_cons.1 hm
  refine ⟨k, hk, ?_⟩
  rwa [Memory.lookup, if_pos rfl, Memory.lookup_below hm' (Nat.lt_succ_self k)]

/-- The tails of canonical memories with the same first cell read alike if the memories do. -/
theorem Memory.lookup_tail_eq {k : Nat} {c : Byte} {m m' : Memory} (hm : Memory.wfFrom (k + 1) m = true)
    (hm' : Memory.wfFrom (k + 1) m' = true) {a : Nat}
    (h : Memory.lookup ((k, c) :: m) a = Memory.lookup ((k, c) :: m') a) : m.lookup a = m'.lookup a := by
  by_cases hak : a < k + 1
  · rw [Memory.lookup_below hm hak, Memory.lookup_below hm' hak]
  · rwa [Memory.lookup, if_neg (by omega), Memory.lookup, if_neg (by omega)] at h

/-- Canonical memories that read alike are equal, cell by cell: neither can begin below the other. -/
theorem Memory.eq_of_lookup_eq {lo : Nat} {m m' : Memory} (hm : Memory.wfFrom lo m = true)
    (hm' : Memory.wfFrom lo m' = true) (h : ∀ a, a < 0x1000 → m.lookup a = m'.lookup a) : m = m' := by
  induction m generalizing lo m' with
  | nil =>
    cases m' with
    | nil => rfl
    | cons kc' m' =>
      obtain ⟨a, ha, hne⟩ := Memory.exists_lookup_ne_of_lt hm' (m' := []) rfl
      exact absurd (h a ha).symm hne
  | cons kc m ih =>
    cases m' with
    | nil =>
      obtain ⟨a, ha, hne⟩ := Memory.exists_lookup_ne_of_lt hm (m' := []) rfl
      exact absurd (h a ha) hne
    | cons kc' m' =>
      obtain ⟨k, c⟩ := kc
      obtain ⟨k', c'⟩ := kc'
      obtain ⟨-, hk, hc, hm1⟩ := Memory.wfFrom_cons.1 hm
      obtain ⟨-, hk', hc', hm1'⟩ := Memory.wfFrom_cons.1 hm'
      rcases Nat.lt_trichotomy k k' with hlt | rfl | hlt
      · obtain ⟨a, ha, hne⟩ := Memory.exists_lookup_ne_of_lt hm (Memory.wfFrom_cons.2 ⟨hlt, hk', hc', hm1'⟩)
        exact absurd (h a ha) hne
      · obtain rfl : c = c' := by simpa [Memory.lookup] using h k hk
        rw [ih hm1 hm1' fun a ha => Memory.lookup_tail_eq hm1 hm1' (h a ha)]
      · obtain ⟨a, ha, hne⟩ := Memory.exists_lookup_ne_of_lt hm' (Memory.wfFrom_cons.2 ⟨hlt, hk, hc, hm1⟩)
        exact absurd (h a ha).symm hne

/-- Settles O17: the canonical form from address 0 up. -/
theorem equalReadsGiveEqualMemory : Obligations.EqualReadsGiveEqualMemory := fun _ _ => Memory.eq_of_lookup_eq

/-! ### Reset -/

/-- The memory of reset: the glyphs and zeros around them (R35, R51). -/
theorem Memory.lookup_nil (a : Nat) : Memory.lookup [] a =
    if 0x050 ≤ a ∧ a < 0x0A0 then Config.fontset.getD (a - 0x050) 0 else 0 := by
  have hlen : Config.fontset.length = 80 := rfl
  simp only [Memory.lookup, Memory.initial, Config.fontBase]
  split
  · next hlo =>
    by_cases hhi : a < 0x0A0
    · rw [if_pos ⟨hlo, hhi⟩]
    · rw [if_neg (by omega), List.getD_eq_default _ _ (by omega)]
  · next hlo => rw [if_neg (fun h => hlo h.1)]

/-- Settles O12: every listed value is read off the launch state; its memory lists no cell. -/
theorem resetLeavesTheListedValues : Obligations.ResetLeavesTheListedValues := by
  refine fun video key seed => ⟨_, rfl, fun a ha => ?_, rfl, fun r => ?_, rfl, fun k => ?_, rfl, rfl, rfl, rfl, rfl, rfl,
    rfl, rfl⟩
  · rw [State.memRead_of_lt ha]
    exact congrArg _ (Memory.lookup_nil a)
  · exact Vector.getElem_replicate r.isLt
  · exact Vector.getElem_replicate k.isLt

/-- Settles O13: no launch state lists a cell. -/
theorem resetMeetsInvariant : Obligations.ResetMeetsInvariant := ⟨State.reset_mem_wf, fun _ _ _ => State.reset_mem_wf⟩

/-! ### Blocks -/

/-- Memory outside a stored block. -/
theorem memoryKeptOutside_storeAll {a : Nat} {bs : List Byte} (hs : s.Inv) (hlen : a + bs.length ≤ Config.memSize) :
    MemoryKeptOutside a bs.length s (s.setMem (s.mem.storeAll a bs)) := by
  intro c hc
  apply State.memRead_setMem_of_lookup_eq
  rw [Memory.lookup_storeAll hs hlen]
  split
  · rw [List.getD_eq_default _ _ (by omega)]
  · rfl

/-- A byte of a stored block. -/
theorem memRead_storeAll {a k : Nat} {b : Byte} {bs : List Byte} (hs : s.Inv) (hlen : a + bs.length ≤ Config.memSize)
    (hb : bs[k]? = some b) : (s.setMem (s.mem.storeAll a bs)).memRead (a + k) = .ok b := by
  obtain ⟨hk, -⟩ := List.getElem?_eq_some_iff.1 hb
  rw [State.memRead_of_lt (by omega), State.mem_setMem, Memory.lookup_storeAll hs hlen, if_pos (Nat.le_add_right a k),
    Nat.add_sub_cancel_left, List.getD_eq_getElem?_getD, hb, Option.getD_some]

/-- Settles O30: the block store stores the registers up to `x` in ascending order. -/
theorem blockStoreWritesRegisters : Obligations.BlockStoreWritesRegisters := by
  refine fun x s => ⟨fun hs hlt => ?_, fun hge => exec_storeRegs_of_ge hge⟩
  have hlen : ((regsUpTo x).map s.getV).length = x.val + 1 := by rw [List.length_map, length_regsUpTo]
  have hfit : s.i.toNat + ((regsUpTo x).map s.getV).length ≤ Config.memSize := by rw [hlen, memSize_eq]; omega
  have hexec : exec (.storeRegs x) s = _ := exec_storeRegs_of_lt (Nat.lt_succ_of_le hlt)
  refine ⟨_, hexec, fun k hk => memRead_storeAll hs hfit ?_, ?_, exec_keepsBut hexec⟩
  · rw [List.getElem?_map, getElem?_regsUpTo x k hk, Option.map_some]
  · rw [← hlen]
    exact memoryKeptOutside_storeAll hs hfit

/-- Settles O31: the block load writes the registers up to `x` only, each with the byte at its own address. -/
theorem blockLoadReadsRegisters : Obligations.BlockLoadReadsRegisters := by
  refine fun x s => ⟨fun hlt => ?_, fun hge => exec_loadRegs_of_ge hge⟩
  obtain ⟨t, ht, -, hregs⟩ := exec_loadRegs_of_lt (Nat.lt_succ_of_le hlt)
  refine ⟨t, ht, fun k hk => ?_, fun k hk => ?_, exec_keepsBut ht⟩
  · have hkx : k.val ≤ x.val := hk
    rw [hregs k, if_pos hk, effective, State.memRead_of_lt (by rw [memSize_eq]; omega)]
  · rw [hregs k, if_neg hk.not_ge]

/-- The digits of a byte as numbers: hundreds, tens, ones (R132). -/
theorem bcdDigits_eq (b : Byte) : bcdDigits b =
    [BitVec.ofNat 8 (b.toNat / 100), BitVec.ofNat 8 (b.toNat / 10 % 10), BitVec.ofNat 8 (b.toNat % 10)] := by
  revert b; decide

/-- Settles O39: the digit store stores the three digits as a block. -/
theorem bcdStoresThreeDigits : Obligations.BcdStoresThreeDigits := by
  refine fun x s => ⟨fun hs hlt => ?_, fun hge => exec_ldBcd_of_ge hge⟩
  have hexec : exec (.ldBcd x) s = _ := exec_ldBcd_of_lt (Nat.lt_succ_of_le hlt)
  have hfit : s.i.toNat + (bcdDigits (s.getV x)).length ≤ Config.memSize := Nat.lt_succ_of_le hlt
  have hbyte (k : Nat) (b : Byte) (hb : (bcdDigits (s.getV x))[k]? = some b) := memRead_storeAll hs hfit hb
  have hdigits := bcdDigits_eq (s.getV x)
  exact ⟨_, hexec, hbyte 0 _ (by rw [hdigits]; rfl), hbyte 1 _ (by rw [hdigits]; rfl), hbyte 2 _ (by rw [hdigits]; rfl),
    memoryKeptOutside_storeAll hs hfit, exec_keepsBut hexec⟩

/-! ### The ROM load -/

/-- An image that fits is stored as one block (R182). -/
theorem State.loadRom_of_le {rom : List Byte} (h : rom.length ≤ Config.romMax) :
    s.loadRom rom = .next (s.setMem (s.mem.storeAll Config.programOrigin rom)) := by
  have hfit : Config.programOrigin + rom.length ≤ Config.memSize := by
    simp only [Config.programOrigin, Config.memSize, Config.romMax] at h ⊢; omega
  rw [State.loadRom, if_pos h, State.writeBytes_of_le hfit]
  rfl

/-- An image that does not fit is refused (R183). -/
theorem State.loadRom_of_gt {rom : List Byte} (h : Config.romMax < rom.length) :
    s.loadRom rom = .refused (.romTooLong rom.length) := if_neg (Nat.not_le.2 h)

/-- Settles O58: an image that fits is one stored block, which the first fetch begins to read. -/
theorem romLoadCopiesImage : Obligations.RomLoadCopiesImage := by
  intro video key seed rom
  refine ⟨fun hle => ?_, fun hgt => ⟨State.loadRom_of_gt hgt, ?_⟩⟩
  · have hs : (State.launch video key seed).Inv := resetMeetsInvariant.2 video key seed
    have hfit : 0x200 + rom.length ≤ Config.memSize := by rw [memSize_eq]; omega
    have hbyte (k : Nat) (b : Byte) (hb : rom[k]? = some b) := memRead_storeAll hs hfit hb
    refine ⟨_, State.loadRom_of_le hle, Memory.wf_storeAll hs hfit, ?_, hbyte, memoryKeptOutside_storeAll hs hfit,
      keepsBut_setMem _ _, fun hi lo rest hrom => ?_⟩
    · rw [Engine.accept, State.loadRom_of_le hle]
      rfl
    · subst hrom
      exact State.fetch_of_memRead (hbyte 0 hi rfl) (hbyte 1 lo rfl)
  · rw [Engine.accept, State.loadRom_of_gt hgt]
    rfl

end Sys2Proof.Machine
end

section
/-! SUPPORT and O9, O10, O11, O49. The timers in a cycle and over many, and the states that come back to themselves but for
the timers: the self-jump and the key wait (spec 40_cycle_and_dispatch.md R94; 60_exceptions.md R168; 70_reset_and_hazards.md
R189, R192; 46_input.md R148). -/

namespace Sys2Proof.Machine

variable {s t : State} {w : Word}

/-! ### The timers in a cycle -/

/-- Settles O9: the tick counts down what the instruction left, which is what it wrote or what was there. -/
theorem timersStepInEveryCycle : Obligations.TimersStepInEveryCycle := by
  intro s t w hw h
  obtain ⟨w', u, hw', hu, hst, hdt⟩ := step_next_timers h
  cases hw.symm.trans hw'
  refine ⟨fun x hx => ?_, fun hx => ?_, fun x hx => ?_, fun hx => ?_⟩
  · rw [hx] at hu
    cases hu
    exact hdt
  · rw [hdt, exec_next_dt hx hu, State.dt_advance]
  · rw [hx] at hu
    cases hu
    exact hst
  · rw [hst, exec_next_st hx hu, State.st_advance]

/-- An instruction that is no `LD DT` lets the cycle count `DT` down. -/
theorem step_next_dt_of_not_writesDT (hw : s.fetch = .ok w) (hp : Instr.writesDT (decode w) = false)
    (h : step s = .next t) : t.dt.toNat = s.dt.toNat - 1 := by
  obtain ⟨-, hdt, -⟩ := timersStepInEveryCycle s t w hw h
  exact hdt fun x hx => by simp [hx, Instr.writesDT] at hp

/-- An instruction that is no `LD ST` lets the cycle count `ST` down. -/
theorem step_next_st_of_not_writesST (hw : s.fetch = .ok w) (hp : Instr.writesST (decode w) = false)
    (h : step s = .next t) : t.st.toNat = s.st.toNat - 1 := by
  obtain ⟨-, -, -, hst⟩ := timersStepInEveryCycle s t w hw h
  exact hst fun x hx => by simp [hx, Instr.writesST] at hp

/-! ### Many cycles -/

/-- What goes down by one in every cycle that avoids some instructions counts the cycles that do. -/
theorem cycles_count {timer : State → Byte} {p : Instr → Bool}
    (hstep : ∀ {s t : State} {w : Word}, s.fetch = .ok w → p (decode w) = false → step s = .next t →
      (timer t).toNat = (timer s).toNat - 1)
    {k : Nat} (h : cycles k s = .next t) (havoid : s.avoids p k) : (timer t).toNat = (timer s).toNat - k := by
  induction k generalizing s with
  | zero => cases h; rfl
  | succ k ih =>
    obtain ⟨u, hu, hk⟩ := cycles_succ_next h
    obtain ⟨w, -, hw, -⟩ := step_next_iff.1 hu
    obtain ⟨hp, hrest⟩ := havoid
    rw [ih hk (hrest u hu), hstep hw (hp w hw) hu]
    omega

/-- Settles O10: both timers go down by one in each cycle that does not write them. -/
theorem timersCountCycles : Obligations.TimersCountCycles := fun _ _ _ h =>
  ⟨cycles_count step_next_dt_of_not_writesDT h, cycles_count step_next_st_of_not_writesST h⟩

/-- After `k` cycles nothing has changed but the transient word and the timers, which have run down. -/
def IdledFor (k : Nat) (s t : State) : Prop :=
  t.mem = s.mem ∧ KeepsBut [.word, .delayTimer, .soundTimer] s t ∧
    t.dt.toNat = s.dt.toNat - k ∧ t.st.toNat = s.st.toNat - k

/-- A state that idles for one cycle into another such state idles for any number of cycles. -/
theorem cycles_of_idle {P : State → Prop} (hstep : ∀ s, P s → ∃ t, step s = .next t ∧ P t ∧ IdledFor 1 s t) (k : Nat)
    (hs : P s) : ∃ t, cycles k s = .next t ∧ P t ∧ IdledFor k s t := by
  induction k generalizing s with
  | zero => exact ⟨s, rfl, hs, rfl, keepsBut_refl _ s, rfl, rfl⟩
  | succ k ih =>
    obtain ⟨u, hu, hpu, humem, huframe, hudt, hust⟩ := hstep s hs
    obtain ⟨t, ht, hpt, htmem, htframe, htdt, htst⟩ := ih hpu
    exact ⟨t, (cycles_succ_of_next hu).trans ht, hpt, htmem.trans humem, keepsBut_trans huframe htframe, by omega,
      by omega⟩

/-! ### The self-jump and the key wait -/

/-- A jump to its own address idles (R192). -/
theorem step_idles_of_atSelfJump (h : s.atSelfJump) : ∃ t, step s = .next t ∧ t.atSelfJump ∧ IdledFor 1 s t := by
  obtain ⟨t, ht, hjump, hmem, hframe⟩ := step_of_atSelfJump h
  obtain ⟨nnn, hf, -⟩ := h
  have hdt := step_next_dt_of_not_writesDT hf (by rw [decode_encode_jp]; rfl) ht
  have hst := step_next_st_of_not_writesST hf (by rw [decode_encode_jp]; rfl) ht
  exact ⟨t, ht, hjump, hmem, hframe, hdt, hst⟩

/-- Settles O11: a jump to its own address idles in every cycle. -/
theorem selfJumpChangesOnlyTimers : Obligations.SelfJumpChangesOnlyTimers := fun k _ =>
  cycles_of_idle (fun _ => step_idles_of_atSelfJump) k

/-- The state is at a key wait with no key held (R148). -/
def State.atKeyWait (s : State) : Prop :=
  ∃ w x, s.fetch = .ok w ∧ decode w = .ldKey x ∧ ∀ j : Reg, s.key[j.val] = false

/-- A key wait with no key held goes back to itself and idles (R148, R189). -/
theorem step_idles_of_atKeyWait (h : s.atKeyWait) : ∃ t, step s = .next t ∧ t.atKeyWait ∧ IdledFor 1 s t := by
  obtain ⟨w, x, hf, hd, hnone⟩ := h
  have hexec : exec (decode w) (s.advance w) = .next (s.advance w).rewind := by
    rw [hd]
    exact exec_ldKey_of_none x (lowestKey_none.2 hnone)
  have hpc : (s.advance w).rewind.tick.pc = s.pc := BitVec.add_sub_cancel s.pc 2
  have hfetch : (s.advance w).rewind.tick.fetch = s.fetch := State.fetch_congr rfl hpc
  refine ⟨_, step_next_iff.2 ⟨w, _, hf, hexec, rfl⟩, ⟨w, x, hfetch.trans hf, hd, hnone⟩, rfl, ?_, toNat_countDown s.dt,
    toNat_countDown s.st⟩
  exact keepsBut_of_same (keepsBut_tick_setPc_advance s w _) hpc

/-- Settles O49: a key wait with no key held idles in every cycle. -/
theorem keyWaitRepeatsWhileNoKey : Obligations.KeyWaitRepeatsWhileNoKey := by
  intro k s w x hf hd hnone
  obtain ⟨t, ht, -, hidle⟩ := cycles_of_idle (fun _ => step_idles_of_atKeyWait) k ⟨w, x, hf, hd, hnone⟩
  exact ⟨t, ht, hidle⟩

end Sys2Proof.Machine
end

section
/-! SUPPORT and O42, O43, O44, O45, O46. The draw: no two pixels of a sprite share a cell, so a draw turns over the cells
under its set pixels; where it faults; and where the readings of the edges agree (spec 45_display.md R136 to R141;
93_implementation_defined.md U6). -/

namespace Sys2Proof.Machine

variable {s t : State}

/-! ### Pixels and cells -/

/-- A row-major index gives back its row and column. -/
theorem rowMajor_inj {w a b c c' : Nat} (hc : c < w) (hc' : c' < w) (h : a * w + c = b * w + c') : a = b ∧ c = c' := by
  have hcc : c = c' := by
    simpa [Nat.mod_eq_of_lt hc, Nat.mod_eq_of_lt hc'] using congrArg (· % w) h
  subst hcc
  exact ⟨Nat.eq_of_mul_eq_mul_right (by omega) (Nat.add_right_cancel h), rfl⟩

/-- Rows that wrap to the same screen row are the same, on a screen higher than the sprite. -/
theorem row_eq_of_mod_eq {h y0 r r' : Nat} (hr : r < h) (hr' : r' < h) (heq : (y0 + r) % h = (y0 + r') % h) : r = r' :=
  (Nat.ModEq.add_left_cancel' y0 heq).eq_of_lt_of_lt hr hr'

/-- Settles O45: the index gives back the wrapped row and the column, and the wrapped row the row. -/
theorem spritePixelsShareNoCell : Obligations.SpritePixelsShareNoCell := by
  intro w h x0 y0 r c r' c' k hw hh hr hr' hc hc' hp hp'
  have hidx := (placeAt_eq_cell.1 hp).trans (placeAt_eq_cell.1 hp').symm
  obtain ⟨hrow, hcol⟩ := rowMajor_inj (w := w) (a := (y0 + r) % h) (b := (y0 + r') % h) (c := c) (c' := c') (by omega)
    (by omega) (by omega)
  exact ⟨row_eq_of_mod_eq (by omega) (by omega) hrow, hcol⟩

/-! ### Where the readings of the edges agree -/

/-- Readings that place every pixel alike draw alike. -/
theorem drawPixels_congr {edge edge' : DrawEdge} {w h x0 y0 : Nat} {ps : List (Nat × Nat)} {cv : Canvas (w * h)}
    (hp : ∀ p ∈ ps, place edge w h x0 y0 p.1 p.2 = place edge' w h x0 y0 p.1 p.2) :
    drawPixels edge w h x0 y0 cv ps = drawPixels edge' w h x0 y0 cv ps := by
  induction ps generalizing cv with
  | nil => rfl
  | cons p ps ih =>
    obtain ⟨hhead, htail⟩ := List.forall_mem_cons.1 hp
    rw [drawPixels, drawPixels, hhead]
    split
    · rfl
    · exact ih htail

/-- A pixel within the screen has a cell. -/
theorem index_lt_of_inside {w h x y : Nat} (hx : x < w) (hy : y < h) : y * w + x < w * h :=
  calc y * w + x < y * w + w := Nat.add_lt_add_left hx _
    _ = (y + 1) * w := (Nat.succ_mul y w).symm
    _ ≤ h * w := Nat.mul_le_mul_right w hy
    _ = w * h := Nat.mul_comm h w

/-- Settles O46: a pixel within the screen goes to its own cell in every reading. -/
theorem edgeReadingsAgreeInside : Obligations.EdgeReadingsAgreeInside := by
  refine fun w h vx vy rows video hw hh => ⟨fun hx hy p hp => ?_, fun hin => ?_⟩
  · obtain ⟨-, b, hb, hc⟩ := mem_spritePixels.1 hp
    obtain ⟨hr, -⟩ := List.getElem?_eq_some_iff.1 hb
    have hc8 := (mem_rowPixels.1 hc).1
    omega
  · have hplace (edge : DrawEdge) (p) (hp : p ∈ spritePixels 0 rows) :=
      place_inside (edge := edge) (hin p hp).1 (hin p hp).2
    obtain ⟨cv, hcv⟩ : ∃ cv, drawSprite .clip w h vx vy rows video = .ok cv := by
      refine drawPixels_ok_iff.2 fun p hp idx hout => ?_
      rw [hplace .clip p hp, placeAt_eq_outside, Nat.add_assoc] at hout
      exact absurd (index_lt_of_inside (hin p hp).1 (hin p hp).2) (by omega)
    exact ⟨cv, fun edge => hcv ▸ drawPixels_congr fun p hp => (hplace edge p hp).trans (hplace .clip p hp).symm⟩

/-! ### What a draw does -/

/-- Where the machine places a pixel (R139). -/
theorem place_eq_placeAt_spriteIndex (vx vy : Byte) (r c : Nat) :
    place Config.drawEdge Config.videoWidth Config.videoHeight (vx.toNat % Config.videoWidth)
      (vy.toNat % Config.videoHeight) r c = placeAt Config.videoCells (spriteIndex vx vy r c) := rfl

/-- No two pixels of a sprite of the machine share a cell (R140). -/
theorem State.spriteRows_share_no_cell (s : State) (vx vy : Byte) (n : BitVec 4) :
    (spritePixels 0 (s.spriteRows n.toNat)).Pairwise fun p q => ∀ k : Fin Config.videoCells,
      placeAt Config.videoCells (spriteIndex vx vy p.1 p.2) = .cell k →
      placeAt Config.videoCells (spriteIndex vx vy q.1 q.2) ≠ .cell k := by
  refine (sorted_spritePixels 0 _).imp_of_mem fun {p q} hp hq hlt k hpk hqk => ?_
  obtain ⟨hr, hc, -⟩ := State.mem_spritePixels.1 hp
  obtain ⟨hr', hc', -⟩ := State.mem_spritePixels.1 hq
  obtain ⟨hrow, hcol⟩ := spritePixelsShareNoCell Config.videoWidth Config.videoHeight _ _ _ _ _ _ k (by decide) (by decide)
    (by omega) (by omega) hc hc' hpk hqk
  omega

/-- A draw whose rows exist completes exactly when all its set pixels are in the buffer (R138, R139). -/
theorem exec_drw_completes_iff {x y : Reg} {n : BitVec 4}
    (hrows : n.toNat = 0 ∨ s.i.toNat + (n.toNat - 1) < Config.memSize) :
    (∃ t, exec (.drw x y n) s = .next t) ↔ ∀ r c, r < n.toNat → c < 8 → s.spriteBit r c = true →
      spriteIndex (s.getV x) (s.getV y) r c < Config.videoCells := by
  have hdraw : (∃ t, exec (.drw x y n) s = .next t) ↔ ∃ cv, drawSprite Config.drawEdge Config.videoWidth
      Config.videoHeight (s.getV x) (s.getV y) (s.spriteRows n.toNat) s.video = .ok cv := by
    rw [exec_drw_of_lt hrows]
    split
    · next f hf => simp [hf]
    · next cv hcv => simp [hcv]
  rw [hdraw, drawSprite, drawPixels_ok_iff]
  constructor
  · intro h r c hr hc hbit
    by_contra hge
    exact h (r, c) (State.mem_spritePixels.2 ⟨hr, hc, hbit⟩) _ (placeAt_eq_outside.2 ⟨rfl, not_lt.1 hge⟩)
  · rintro h ⟨r, c⟩ hp idx hout
    obtain ⟨hr, hc, hbit⟩ := State.mem_spritePixels.1 hp
    exact absurd (h r c hr hc hbit) (not_lt.2 (placeAt_eq_outside.1 hout).2)

/-- A cell is covered when a set pixel is placed on it. -/
theorem State.spriteCovers_iff {vx vy : Byte} {n : Nat} (k : Fin Config.videoCells) :
    s.spriteCovers vx vy n k.val ↔ ∃ p ∈ spritePixels 0 (s.spriteRows n),
      placeAt Config.videoCells (spriteIndex vx vy p.1 p.2) = .cell k := by
  simp only [Prod.exists, State.mem_spritePixels, placeAt_eq_cell, and_assoc]
  rfl

/-- With its set pixels in the buffer, a sprite meets a cell that is on when a set pixel is placed on one. -/
theorem State.spriteMeets_iff {vx vy : Byte} {n : Nat}
    (hin : ∀ r c, r < n → c < 8 → s.spriteBit r c = true → spriteIndex vx vy r c < Config.videoCells) :
    s.spriteMeets vx vy n true ↔ ∃ p ∈ spritePixels 0 (s.spriteRows n), ∃ k : Fin Config.videoCells,
      placeAt Config.videoCells (spriteIndex vx vy p.1 p.2) = .cell k ∧ s.video.getLsbD k.val = true := by
  simp only [Prod.exists, State.mem_spritePixels, placeAt_eq_cell]
  constructor
  · rintro ⟨r, c, hr, hc, hbit, hon⟩
    exact ⟨r, c, ⟨hr, hc, hbit⟩, ⟨_, hin r c hr hc hbit⟩, rfl, hon⟩
  · rintro ⟨r, c, ⟨hr, hc, hbit⟩, k, hk, hon⟩
    exact ⟨r, c, hr, hc, hbit, hk ▸ hon⟩

theorem flagByte_eq_one_iff (f : Bool) : flagByte f = 1 ↔ f = true := by
  cases f <;> simp [flagByte]

/-- A cell differs from what it was exactly where it was turned over. -/
theorem xor_decide_eq_not_iff (b : Bool) (p : Prop) [Decidable p] : (b ^^ decide p) = !b ↔ p := by
  by_cases hp : p <;> simp [hp]

/-- What a draw that completes leaves: the cells under a set pixel turned over, and in `VF` whether one of them was on
(R138, R140). -/
theorem exec_drw_spec {x y : Reg} {n : BitVec 4} (h : exec (.drw x y n) s = .next t) :
    (∀ k, k < Config.videoCells →
      (t.video.getLsbD k = !s.video.getLsbD k ↔ s.spriteCovers (s.getV x) (s.getV y) n.toNat k)) ∧
    (t.getV 15 = 1 ↔ s.spriteMeets (s.getV x) (s.getV y) n.toNat true) ∧ RegsKeptBut [15] s t := by
  obtain ⟨hrows, cv, hcv, rfl⟩ := exec_drw_next h
  have hin := (exec_drw_completes_iff hrows).1 ⟨_, h⟩
  obtain ⟨hvideo, hhit⟩ := drawPixels_ok hcv (s.spriteRows_share_no_cell _ _ n)
  refine ⟨fun k hk => ?_, ?_, fun r hr => ?_⟩
  · refine Iff.trans ?_ (State.spriteCovers_iff ⟨k, hk⟩).symm
    have hcell : (s.finishDraw cv).video.getLsbD k = _ := hvideo ⟨k, hk⟩
    rw [hcell]
    exact xor_decide_eq_not_iff _ _
  · rw [State.getV_finishDraw, if_pos rfl, flagByte_eq_one_iff, hhit, State.spriteMeets_iff hin]
    simp [place_eq_placeAt_spriteIndex]
  · rw [State.getV_finishDraw, if_neg (by simpa using hr)]

/-- Settles O42: with all set pixels in the buffer the draw completes, and turns over the cells under them. -/
theorem drawTurnsOverSpritePixels : Obligations.DrawTurnsOverSpritePixels := by
  intro x y n s hrows hin
  obtain ⟨t, ht⟩ := (exec_drw_completes_iff (by rw [memSize_eq]; omega)).2 hin
  obtain ⟨hvideo, hflag, hregs⟩ := exec_drw_spec ht
  refine ⟨t, ht, fun k hk => ⟨(hvideo k hk).2, fun hno => ?_⟩, hflag.2, fun hno => ?_, hregs, exec_keepsBut ht⟩
  · exact Bool.not_eq_not.1 (mt (hvideo k hk).1 hno)
  · exact (exec_next_flag ht rfl).resolve_right (mt hflag.1 hno)

/-! ### The same draw twice -/

/-- Where a sprite's pixels lie depends on memory and on `I` only. -/
theorem State.spriteBit_congr (hm : t.mem = s.mem) (hi : t.i = s.i) (r c : Nat) : t.spriteBit r c = s.spriteBit r c := by
  rw [State.spriteBit, State.spriteBit, hm, hi]

theorem State.spriteCovers_congr (hm : t.mem = s.mem) (hi : t.i = s.i) (vx vy : Byte) (n k : Nat) :
    t.spriteCovers vx vy n k ↔ s.spriteCovers vx vy n k := by
  simp only [State.spriteCovers, State.spriteBit_congr hm hi]

/-- Settles O44: the second draw has the same pixels, so it turns the same cells back, and a pixel meets a cell that is on
where the first draw met one that was off. -/
theorem drawingTwiceRestoresBuffer : Obligations.DrawingTwiceRestoresBuffer := by
  intro x y n s t hx hy h
  obtain ⟨hvideo, hflag, hregs⟩ := exec_drw_spec h
  obtain ⟨hrows, -⟩ := exec_drw_next h
  have hin := (exec_drw_completes_iff hrows).1 ⟨t, h⟩
  have hm : t.mem = s.mem := exec_next_mem h (by simp [Instr.writes])
  have hi : t.i = s.i := exec_same h (p := .index) (by simp [Instr.writes])
  have hvx : t.getV x = s.getV x := hregs x (by simpa using hx)
  have hvy : t.getV y = s.getV y := hregs y (by simpa using hy)
  obtain ⟨u, hu⟩ : ∃ u, exec (.drw x y n) t = .next u := by
    rw [exec_drw_completes_iff (by rwa [hi]), hvx, hvy]
    simpa only [State.spriteBit_congr hm hi] using hin
  obtain ⟨huvideo, huflag, -⟩ := exec_drw_spec hu
  rw [hvx, hvy] at huvideo huflag
  refine ⟨u, hu, BitVec.eq_of_getLsbD_eq fun k hk => ?_, hflag, huflag.trans ?_⟩
  · have hone := hvideo k hk
    have htwo := (huvideo k hk).trans (State.spriteCovers_congr hm hi _ _ _ k)
    by_cases hcov : s.spriteCovers (s.getV x) (s.getV y) n.toNat k
    · rw [htwo.2 hcov, hone.2 hcov, Bool.not_not]
    · rw [Bool.not_eq_not.1 (mt htwo.1 hcov), Bool.not_eq_not.1 (mt hone.1 hcov)]
  · have hturned (r c : Nat) (hr : r < n.toNat) (hc : c < 8) (hbit : s.spriteBit r c = true) :=
      (hvideo _ (hin r c hr hc hbit)).2 ⟨r, c, hr, hc, hbit, rfl⟩
    simp only [State.spriteMeets, State.spriteBit_congr hm hi]
    constructor
    · rintro ⟨r, c, hr, hc, hbit, hon⟩
      exact ⟨r, c, hr, hc, hbit, by simpa [hturned r c hr hc hbit] using hon⟩
    · rintro ⟨r, c, hr, hc, hbit, hoff⟩
      exact ⟨r, c, hr, hc, hbit, by rw [hturned r c hr hc hbit, hoff]; rfl⟩

/-! ### Where a draw faults -/

/-- The index of a pixel on a wrapped row runs at most 7 past the buffer (R139). -/
theorem spriteIndex_le (vx vy : Byte) (r : Nat) {c : Nat} (hc : c < 8) : spriteIndex vx vy r c ≤ 2054 := by
  simp only [spriteIndex, Config.videoHeight, Config.videoWidth]
  omega

/-- In a list in drawing order, what comes before a pixel stands before it. -/
theorem mem_before_of_sorted {before after : List (Nat × Nat)} {p q : Nat × Nat}
    (hsorted : (before ++ p :: after).Pairwise fun p q => p.1 < q.1 ∨ p.1 = q.1 ∧ p.2 < q.2)
    (hq : q ∈ before ++ p :: after) (hlt : q.1 < p.1 ∨ q.1 = p.1 ∧ q.2 < p.2) : q ∈ before := by
  rcases List.mem_append.1 hq with hq | hq
  · exact hq
  · rcases List.mem_cons.1 hq with rfl | hq
    · omega
    · obtain ⟨-, htail, -⟩ := List.pairwise_append.1 hsorted
      have hpq := (List.pairwise_cons.1 htail).1 q hq
      omega

/-- Settles O43: the fault is that of the first set pixel in drawing order, row by row and left to right, that is past the
buffer. -/
theorem drawFaultsWhereListed : Obligations.DrawFaultsWhereListed := by
  refine fun x y n s => ⟨fun h0 hge => exec_drw_of_ge h0 hge, fun hrows hpast => ?_⟩
  have hrows' : n.toNat = 0 ∨ s.i.toNat + (n.toNat - 1) < Config.memSize := by rw [memSize_eq]; omega
  cases hdraw : drawSprite Config.drawEdge Config.videoWidth Config.videoHeight (s.getV x) (s.getV y)
    (s.spriteRows n.toNat) s.video with
  | ok cv =>
    obtain ⟨r, c, hr, hc, hbit, hge⟩ := hpast
    have hexec : exec (.drw x y n) s = .next (s.finishDraw cv) := by rw [exec_drw_of_lt hrows', hdraw]
    exact absurd ((exec_drw_completes_iff hrows').1 ⟨_, hexec⟩ r c hr hc hbit) (not_lt.2 hge)
  | error f =>
    have hexec : exec (.drw x y n) s = .fault f := by rw [exec_drw_of_lt hrows', hdraw]
    obtain ⟨before, r, c, after, idx, hps, hplace, rfl, hbefore⟩ := drawPixels_error hdraw
    obtain ⟨rfl, hge⟩ := placeAt_eq_outside.1 hplace
    obtain ⟨hr, hc, hbit⟩ := State.mem_spritePixels.1 (show (r, c) ∈ spritePixels 0 (s.spriteRows n.toNat) by simp [hps])
    refine ⟨r, c, hr, hc, hbit, hge, spriteIndex_le _ _ r hc, hexec, fun r' c' hlt hc' hbit' => ?_⟩
    have hmem : (r', c') ∈ before := by
      refine mem_before_of_sorted (hps ▸ sorted_spritePixels 0 (s.spriteRows n.toNat)) (hps ▸ ?_) hlt
      exact State.mem_spritePixels.2 ⟨by omega, hc', hbit'⟩
    exact not_le.1 fun hge' => hbefore _ hmem _ (placeAt_eq_outside.2 ⟨rfl, hge'⟩)

end Sys2Proof.Machine
end
